-- ==== Sys2Proof/Config.lean ====
section
/-! DEFINITION. What an implementation fixes (spec/00_scope.md R9). Of R9's four parameters, `SEED` and `POLY` are
fixed by the spec and stand with the CRC (Sys2Proof/Machine/Crc.lean), `P_MAX_IN_LEN` is decided as UNBOUNDED (byte
sequences are lists of any length), and `P_WRITE_MAX` is left OPEN: it is the one constant here. -/

namespace Sys2Proof

/-- The values R9 allows for `P_WRITE_MAX`. -/
inductive WriteMax where
  /-- `UNBOUNDED`: no guard, as the reference code. -/
  | unbounded
  /-- `65535`: the limit DOC0 §4.3 states. -/
  | max65535
  /-- `127`: the largest count whose byte count fits its one-byte field. -/
  | max127
  deriving DecidableEq, Repr, Inhabited

/-- The parameter as a bound: `none` is UNBOUNDED (spec/00_scope.md R9). -/
def WriteMax.limit : WriteMax → Option Nat
  | .unbounded => none
  | .max65535 => some 65535
  | .max127 => some 127

/-- DESIGN CHOICE (log entry 5; safe). `P_WRITE_MAX` of the machine at hand (R9, 92_eei_decisions.md D11): a constant with no
body, so that what is proved of the engine holds for every value the spec allows. -/
opaque Config.pWriteMax : WriteMax

end Sys2Proof
end

