-- ==== Sys2Proof/Word.lean ====
section
/-! DEFINITION. The two word widths of the engine (spec/00_scope.md R8): every integer value is unsigned (R10). -/

namespace Sys2Proof

/-- A `u8`: a byte of a sequence, a unit identifier, a function code, a command code, a status. -/
abbrev Byte := BitVec 8

/-- A `u16`: a register address, a quantity, a register value, the CRC and its accumulator. -/
abbrev Word := BitVec 16

end Sys2Proof
end

