-- ==== Sys2Proof/Machine/Operands.lean ====
section
/-! DEFINITION. Every operand form: reading a byte sequence (spec/00_scope.md R11, R13), the register marshaller
(spec/40_register_marshaller.md R100 to R103), the CRC field codec (spec/41_crc_engine.md R113,
spec/42_frame_verifier.md R121), and the reduction of a host's integers to port widths (spec/10_state.md R23). -/

namespace Sys2Proof.Machine

/-- `v[15:8]` (R10). -/
def hiByte (v : Word) : Byte := v.extractLsb' 8 8

/-- `v[7:0]` (R10). -/
def loByte (v : Word) : Byte := v.extractLsb' 0 8

/-- `MemRead(off, n)` (R13): `n` bytes from offset `off`, in sequence order. -/
def memRead (s : List Byte) (off n : Nat) : List Byte := (s.drop off).take n

/-- `u16_to_be(v)` (R100): the high byte first. -/
def u16ToBe (v : Word) : List Byte := [hiByte v, loByte v]

/-- `be_to_u16(hi, lo)` (R101). -/
def beToU16 (hi lo : Byte) : Word := (hi.setWidth 16 <<< 8) ||| lo.setWidth 16

/-- `encode_u16_seq(vs)` (R102): in input order, each high byte first. -/
def encodeU16Seq : List Word → List Byte
  | [] => []
  | v :: vs => u16ToBe v ++ encodeU16Seq vs

/-- Consecutive byte pairs as big-endian words (R101); a last single byte is not decoded. -/
def decodePairs : List Byte → List Word
  | hi :: lo :: rest => beToU16 hi lo :: decodePairs rest
  | _ => []

/-- `decode_u16_seq(in, off, n)` (R103), which reads the `2n` bytes from `off`. -/
def decodeU16Seq (s : List Byte) (off n : Nat) : List Word := decodePairs (memRead s off (2 * n))

/-- `crc_to_le(c)` (R113): the low byte first. -/
def crcToLe (c : Word) : List Byte := [loByte c, hiByte c]

/-- The word of two bytes, the low byte first (R45, R121). -/
def leToU16 (lo hi : Byte) : Word := lo.setWidth 16 ||| (hi.setWidth 16 <<< 8)

/-- The body of a frame: all but its last two bytes (R15). -/
def body (frame : List Byte) : List Byte := memRead frame 0 (frame.length - 2)

/-- `received_crc(frame)` (R121); `none` for a frame of fewer than two bytes, which has no checksum (R120). -/
def receivedCrc (frame : List Byte) : Option Word :=
  match memRead frame (frame.length - 2) 2 with
  | [lo, hi] => some (leToU16 lo hi)
  | _ => none

/-- A host integer reduced to an 8-bit port: `trunc_8` (R23, D5). -/
def trunc8 (n : Int) : Byte := BitVec.ofInt 8 n

/-- A host integer reduced to a 16-bit port: `trunc_16` (R23, D5). -/
def trunc16 (n : Int) : Word := BitVec.ofInt 16 n

/-- The quantity field of a write of `n` values: `n mod 65536` (R134). -/
def quantityField (n : Nat) : Word := BitVec.ofNat 16 n

/-- The byte-count field of a write of `n` values: `2n mod 256` (R134). -/
def byteCountField (n : Nat) : Byte := BitVec.ofNat 8 (2 * n)

end Sys2Proof.Machine
end

