-- ==== Sys2Proof/Machine/Crc.lean ====
section
/-! DEFINITION. The CRC-16/Modbus as functions of byte sequences: spec/41_crc_engine.md R110, R111, and the check of a frame,
spec/42_frame_verifier.md R122. -/

namespace Sys2Proof.Machine

/-- `SEED` (R9, R111). -/
def seed : Word := 0xFFFF#16

/-- `POLY`, the reflected polynomial (R9, R110). -/
def poly : Word := 0xA001#16

/-- One iteration of R110's loop: the low bit is tested before the logical shift. -/
def crcBit (acc : Word) : Word :=
  if acc.getLsbD 0 then (acc >>> 1) ^^^ poly else acc >>> 1

/-- `n` iterations of R110's loop. -/
def crcBits : Nat → Word → Word
  | 0, acc => acc
  | n + 1, acc => crcBits n (crcBit acc)

/-- `crc_step(acc, b)` (R110). -/
def crcStep (acc : Word) (b : Byte) : Word := crcBits 8 (acc ^^^ b.setWidth 16)

/-- `crc16(s)` (R111). -/
def crc16 (s : List Byte) : Word := s.foldl crcStep seed

/-- `verify_crc(frame)` (R122); `none` where R120 raises MalformedLength. -/
def verifyCrc (frame : List Byte) : Option Bool :=
  match receivedCrc frame with
  | none => none
  | some received => some (received == crc16 (body frame))

/-- A body followed by its CRC, low byte then high byte: the common frame completion (spec/43_request_builder.md R130). -/
def sealed (bs : List Byte) : List Byte := bs ++ crcToLe (crc16 bs)

/-- The accumulator after each of `n` bit steps. -/
def bitTrace : Nat → Word → List Word
  | 0, _ => []
  | n + 1, acc => crcBit acc :: bitTrace n (crcBit acc)

/-- The accumulator after each bit step of the CRC of a sequence, from `acc` on: eight per byte (R110, R249). -/
def crcTrace (acc : Word) : List Byte → List Word
  | [] => []
  | b :: bs => bitTrace 8 (acc ^^^ b.setWidth 16) ++ crcTrace (crcStep acc b) bs

end Sys2Proof.Machine
end

