-- ==== Sys2Proof/Syntax.lean ====
section
/-! DEFINITION. The instructions: one constructor per row of spec/opcode_table.json, in the table's order, its arguments the
row's operands. The first five are the engine's commands (spec/30_encoding.md R70), the last five the wire function-code
rows (R61 to R64, R67), which the framer and the parser select by a function code (log entry 6). -/

namespace Sys2Proof

inductive Instr where
  /-- CRC16: `IN`. -/
  | crc16 (inp : List Byte)
  /-- VERIFY_CRC: `IN`. -/
  | verifyCrc (inp : List Byte)
  /-- BUILD_READ: `UNIT`, `START`, `QTY`. -/
  | buildRead (unit : Byte) (start qty : Word)
  /-- BUILD_WRITE: `UNIT`, `START`, `VALUES`. -/
  | buildWrite (unit : Byte) (start : Word) (values : List Word)
  /-- PARSE_RESPONSE: `IN`, and `UNIT`, the expected unit. -/
  | parseResponse (inp : List Byte) (unit : Byte)
  /-- RQ03_READ_HOLDING_REQUEST: the fields of the request frame. -/
  | rq03 (unit : Byte) (start qty : Word)
  /-- RQ10_WRITE_MULTIPLE_REQUEST: the fields of the request frame. -/
  | rq10 (unit : Byte) (start : Word) (values : List Word)
  /-- RS03_READ_HOLDING_RESPONSE: the received frame, its function code 0x03, and the expected unit. -/
  | rs03 (inp : List Byte) (unit : Byte)
  /-- RS10_WRITE_MULTIPLE_RESPONSE: the received frame, its function code 0x10, and the expected unit. -/
  | rs10 (inp : List Byte) (unit : Byte)
  /-- RS_UNSUPPORTED_FUNCTION: the function code of the received frame, neither 0x03 nor 0x10. -/
  | rsUnsupported (fc : Byte)
  deriving DecidableEq, Repr

end Sys2Proof
end

