-- ==== Sys2Proof/WellFormed.lean ====
section
/-! DEFINITION. Which instructions are well formed. The operands of the five commands and of the two request rows are of fixed
widths or any length (spec/10_state.md R21, R23), so each of those is well formed. A response row stands for one value of
the function-code byte at offset 1 of the received frame (spec/30_encoding.md R67). -/

namespace Sys2Proof

def Instr.wellFormed : Instr → Bool
  | .crc16 _ => true
  | .verifyCrc _ => true
  | .buildRead _ _ _ => true
  | .buildWrite _ _ _ => true
  | .parseResponse _ _ => true
  | .rq03 _ _ _ => true
  | .rq10 _ _ _ => true
  | .rs03 inp _ => inp[1]? == some 0x03#8
  | .rs10 inp _ => inp[1]? == some 0x10#8
  | .rsUnsupported fc => fc != 0x03#8 && fc != 0x10#8

end Sys2Proof
end

