-- ==== Sys2Proof/Decode.lean ====
section
/-! DEFINITION. The two encodings of spec/30_encoding.md. COMMAND ENCODING: a command is an 8-bit code and a typed operand tuple, with
no serialisation beyond this pair (R69); a wire row of the table is a function code with its operands (R67, R68). WIRE
ENCODING: the four frame formats (R61 to R64). Decoding is total and rejects by name. -/

namespace Sys2Proof

/-- The operand ports (spec/10_state.md R21). A command reads only the ports R21 gives it. -/
structure Ports where
  /-- `IN` -/
  inp : List Byte
  /-- `UNIT` -/
  unit : Byte
  /-- `START` -/
  start : Word
  /-- `QTY` -/
  qty : Word
  /-- `VALUES` -/
  values : List Word
  deriving DecidableEq, Repr

/-- Ports that carry nothing: zeros and empty sequences. -/
def Ports.zero : Ports := { inp := [], unit := 0, start := 0, qty := 0, values := [] }

/-- The ports a host with unbounded integers supplies: each value reduced to its port's width (spec/10_state.md R23). -/
def Ports.ofHost (inp : List Int) (unit start qty : Int) (values : List Int) : Ports :=
  { inp := inp.map Machine.trunc8, unit := Machine.trunc8 unit, start := Machine.trunc16 start,
    qty := Machine.trunc16 qty, values := values.map Machine.trunc16 }

/-- What one fetch takes: a command of the host, or (DESIGN CHOICE, log entry 6; safe) a direct entry into the sub-block that a wire
row of the table belongs to. -/
inductive Descriptor where
  /-- A command: `CMD[7:0]` and the operand tuple (R69). -/
  | command (cmd : Byte) (ports : Ports)
  /-- The request framer, with the function code it emits (R68) and the operand tuple. -/
  | framer (fc : Byte) (ports : Ports)
  /-- The parser's dispatch (R67): the received bytes, the function code at offset 1, and the expected unit. -/
  | parser (inp : List Byte) (unit : Byte)
  deriving DecidableEq, Repr

/-- Why a descriptor is no instruction. -/
inductive Reject where
  /-- A reserved command code (R71). -/
  | reservedCommand (code : Byte)
  /-- No request format has this function code (R68). -/
  | noRequestFormat (fc : Byte)
  /-- The received bytes, `len` of them, hold no function code (spec/44_response_parser.md R151). -/
  | noFunctionCode (len : Nat)
  deriving DecidableEq, Repr

/-- The command codes (R70); the other codes are reserved (R71). -/
def decodeCommand (cmd : Byte) (p : Ports) : Except Reject Instr :=
  if cmd = 0x01#8 then .ok (.crc16 p.inp)
  else if cmd = 0x02#8 then .ok (.verifyCrc p.inp)
  else if cmd = 0x03#8 then .ok (.buildRead p.unit p.start p.qty)
  else if cmd = 0x04#8 then .ok (.buildWrite p.unit p.start p.values)
  else if cmd = 0x05#8 then .ok (.parseResponse p.inp p.unit)
  else .error (.reservedCommand cmd)

/-- The request rows RQ03 and RQ10 (R61, R62, R68). -/
def decodeRequest (fc : Byte) (p : Ports) : Except Reject Instr :=
  if fc = 0x03#8 then .ok (.rq03 p.unit p.start p.qty)
  else if fc = 0x10#8 then .ok (.rq10 p.unit p.start p.values)
  else .error (.noRequestFormat fc)

/-- The response rows: the parser's dispatch on the byte at offset 1, all 8 bits compared (R67). -/
def decodeResponse (inp : List Byte) (unit : Byte) : Except Reject Instr :=
  match inp with
  | _ :: fc :: _ =>
    if fc = 0x03#8 then .ok (.rs03 inp unit)
    else if fc = 0x10#8 then .ok (.rs10 inp unit)
    else .ok (.rsUnsupported fc)
  | _ => .error (.noFunctionCode inp.length)

/-- Decode, total on every descriptor. -/
def decode : Descriptor → Except Reject Instr
  | .command cmd p => decodeCommand cmd p
  | .framer fc p => decodeRequest fc p
  | .parser inp unit => decodeResponse inp unit

/-- The descriptor of an instruction; a port the row does not read carries nothing. The frame of an unsupported function
code is the shortest that has one. -/
def encode : Instr → Descriptor
  | .crc16 inp => .command 0x01#8 { Ports.zero with inp := inp }
  | .verifyCrc inp => .command 0x02#8 { Ports.zero with inp := inp }
  | .buildRead unit start qty => .command 0x03#8 { Ports.zero with unit := unit, start := start, qty := qty }
  | .buildWrite unit start values => .command 0x04#8 { Ports.zero with unit := unit, start := start, values := values }
  | .parseResponse inp unit => .command 0x05#8 { Ports.zero with inp := inp, unit := unit }
  | .rq03 unit start qty => .framer 0x03#8 { Ports.zero with unit := unit, start := start, qty := qty }
  | .rq10 unit start values => .framer 0x10#8 { Ports.zero with unit := unit, start := start, values := values }
  | .rs03 inp unit => .parser inp unit
  | .rs10 inp unit => .parser inp unit
  | .rsUnsupported fc => .parser [0, fc] 0

/-- The 8-bit code a descriptor is selected by: the `encoding` column of the table. -/
def Descriptor.code : Descriptor → Option Byte
  | .command cmd _ => some cmd
  | .framer fc _ => some fc
  | .parser inp _ => inp[1]?

/-- The response frame a table word stands for: unit 0, the function code at offset 1, and zeros up to the format's
shortest length (R63 with byte count 0, R64). -/
def tableFrame (code : Byte) : List Byte :=
  if code = 0x03#8 then [0, code, 0, 0, 0]
  else if code = 0x10#8 then [0, code, 0, 0, 0, 0, 0, 0]
  else [0, code]

/-- DESIGN CHOICE (log entry 7; safe). The descriptor of a table word with zero operands. The table numbers command codes and function
codes alike, so a word may belong to several rows: a word of 8 bits is read by the first row that matches it in the
table's order (command codes, then the request rows, then the catch-all row RS_UNSUPPORTED_FUNCTION); a wider word is read by
the response rows, the only ones to which the table gives a bit above bit 7. -/
def tableDescriptor (nbits w : Nat) : Descriptor :=
  let code : Byte := BitVec.ofNat 8 w
  if nbits ≤ 8 then
    if 1 ≤ code.toNat ∧ code.toNat ≤ 5 then .command code Ports.zero
    else if code = 0x10#8 then .framer code Ports.zero
    else .parser (tableFrame code) 0
  else .parser (tableFrame code) 0

/-- The instruction the decoder reads from a table word. -/
def decodeTableWord (nbits w : Nat) : Option Instr :=
  match decode (tableDescriptor nbits w) with
  | .ok i => some i
  | .error _ => none

/-! ### The wire formats -/

/-- Format RQ03 (R61), offset by offset. -/
def rq03Bytes (unit : Byte) (start qty : Word) : List Byte :=
  Machine.sealed [unit, 0x03#8, Machine.hiByte start, Machine.loByte start, Machine.hiByte qty, Machine.loByte qty]

/-- Format RQ10 (R62), offset by offset. -/
def rq10Bytes (unit : Byte) (start : Word) (values : List Word) : List Byte :=
  Machine.sealed
    ([unit, 0x10#8, Machine.hiByte start, Machine.loByte start,
      Machine.hiByte (Machine.quantityField values.length), Machine.loByte (Machine.quantityField values.length),
      Machine.byteCountField values.length] ++ values.flatMap fun v => [Machine.hiByte v, Machine.loByte v])

/-- Format RS03 (R63) of a device that answers with `values`; the byte count is `2 * values.length` for at most 127 values. -/
def rs03Bytes (unit : Byte) (values : List Word) : List Byte :=
  Machine.sealed ([unit, 0x03#8, Machine.byteCountField values.length] ++
    values.flatMap fun v => [Machine.hiByte v, Machine.loByte v])

/-- Format RS10 (R64). -/
def rs10Bytes (unit : Byte) (start qty : Word) : List Byte :=
  Machine.sealed [unit, 0x10#8, Machine.hiByte start, Machine.loByte start, Machine.hiByte qty, Machine.loByte qty]

/-- Why a byte sequence is no request frame. -/
inductive FrameReject where
  /-- The CRC field is absent or not the CRC of the body (R60). -/
  | badCrc
  /-- The length is not that of the format (R66). -/
  | badLength
  /-- The quantity and the byte count do not agree (R62 for at most 127 values). -/
  | badQuantity
  /-- Neither 0x03 nor 0x10 (R68). -/
  | badFunctionCode
  deriving DecidableEq, Repr

/-- DEDUCED (log entry 19; safe: no step uses it). What a receiver of a request frame reads from it: the inverse of R61 and R62. The
count of an RQ10 frame is taken from its byte count, and the quantity must agree with it (R66). -/
def readRequest (frame : List Byte) : Except FrameReject Instr :=
  if Machine.verifyCrc frame = some true then
    match Machine.body frame with
    | [unit, fc, sh, sl, qh, ql] =>
      if fc = 0x03#8 then .ok (.rq03 unit (Machine.beToU16 sh sl) (Machine.beToU16 qh ql))
      else if fc = 0x10#8 then .error .badLength
      else .error .badFunctionCode
    | unit :: fc :: sh :: sl :: qh :: ql :: bc :: data =>
      if fc = 0x10#8 then
        if data.length ≠ bc.toNat then .error .badLength
        else if 2 * (Machine.beToU16 qh ql).toNat ≠ bc.toNat then .error .badQuantity
        else .ok (.rq10 unit (Machine.beToU16 sh sl) (Machine.decodePairs data))
      else if fc = 0x03#8 then .error .badLength
      else .error .badFunctionCode
    | _ => .error .badLength
  else .error .badCrc

end Sys2Proof
end

