-- ==== Sys2Proof/Machine/State.lean ====
section
/-! DEFINITION. The state of the machine as plain data, and the machine after reset (spec/10_state.md, spec/70_reset_and_hazards.md R240).
The engine keeps no persistent state (R20): what State holds is the host's sequence of actions, the transient state of the
command in progress (R27 to R29), the result ports (R22) and the host's record of the run (R250). -/

namespace Sys2Proof.Machine

/-- The error records (spec/60_exceptions.md R201). -/
inductive ErrorRecord where
  /-- `MalformedLength { actual_len, expected_len }` -/
  | malformedLength (actualLen : Nat) (expectedLen : Option Nat)
  /-- `ChecksumMismatch { received, computed }` -/
  | checksumMismatch (received computed : Word)
  /-- `UnitMismatch { actual, expected }` -/
  | unitMismatch (actual expected : Byte)
  /-- `UnsupportedFunctionCode { code }` -/
  | unsupportedFunctionCode (code : Byte)
  /-- `QuantityOutOfRange { count, limit }` -/
  | quantityOutOfRange (count limit : Nat)
  /-- `IllegalCommand { code }` -/
  | illegalCommand (code : Byte)
  deriving DecidableEq, Repr

/-- The payloads of a response with status OK (spec/10_state.md R22). -/
inductive Payload where
  /-- `CRC : u16` -/
  | crc (value : Word)
  /-- `MATCH : Bool` -/
  | matched (value : Bool)
  /-- `FRAME : byte sequence` -/
  | frame (bytes : List Byte)
  /-- `READ_RESULT : sequence of u16` -/
  | readResult (values : List Word)
  /-- `WRITE_RESULT : { START, QTY }` -/
  | writeResult (start qty : Word)
  deriving DecidableEq, Repr

/-- A response: a payload or an error record, never both (R22). Its status is a function of it (Sys2Proof/Machine/Flags.lean). -/
inductive Response where
  /-- Status OK with its payload. -/
  | ok (payload : Payload)
  /-- An error status with its record. -/
  | error (record : ErrorRecord)
  deriving DecidableEq, Repr

/-- The result ports (R22). -/
inductive ResultPort where
  | status
  | crc
  | matched
  | frame
  | readResult
  | writeStart
  | writeQty
  | errorRecord
  deriving DecidableEq, Repr

/-- What a host reads from a result port. -/
inductive PortValue where
  | byte (value : Byte)
  | word (value : Word)
  | bool (value : Bool)
  | bytes (value : List Byte)
  | words (value : List Word)
  | record (value : ErrorRecord)
  deriving DecidableEq, Repr

/-- The transient state of the command in progress (R27, R28, R29). -/
structure Work where
  /-- `acc`, the CRC accumulator (R27). -/
  acc : Word
  /-- `k`, the bit counter (R27). -/
  k : BitVec 3
  /-- `i`, the byte index of the CRC and marshalling loops, set to 0 at the start of each (R24, R30). -/
  i : Nat
  /-- The output sequence of a build (R28). -/
  out : List Byte
  /-- The result accumulator of a parse (R29). -/
  res : List Word
  deriving DecidableEq, Repr

/-- What the host can do to the engine, between commands (spec/70_reset_and_hazards.md R240, R245; log entries 1, 4, 9). -/
inductive HostAction where
  /-- Issue a command, its operands taken by value (spec/20_memory.md R42). -/
  | issue (d : Descriptor)
  /-- Read a result port (spec/10_state.md R31). -/
  | readPort (p : ResultPort)
  /-- Reset the engine (R240, R241). -/
  | reset
  deriving DecidableEq, Repr

/-- The state between two steps. -/
structure State where
  /-- The model's own field (log entry 1): the host's actions still to be taken, the next one first (R24, R52). -/
  inputs : List HostAction
  /-- The transient state; `none` where no command is in progress, so in every state a step reaches (R20, R27, R47; log entry 2). -/
  work : Option Work
  /-- The result ports: the response of the last command since reset, `none` before the first (R30, R31). One set of ports for all
hosts, by DESIGN CHOICE (log entry 21). -/
  result : Option Response
  /-- The model's own field (log entry 3): the responses delivered in this run, oldest first (R250). -/
  delivered : List Response
  /-- The model's own field (log entry 4): what the host's last read of a result port gave. -/
  readback : Option PortValue
  deriving DecidableEq, Repr

/-- Where the machine stops. -/
inductive Fault where
  /-- The host reads a result port before any command has completed (R31, U8). Raised by `hostRead`; safe. -/
  | noResponse (p : ResultPort)
  /-- The host reads a result port that the last response gave no value (R22, R31; log entry 4). Raised by `hostRead`; safe. -/
  | portHasNoValue (p : ResultPort)
  deriving DecidableEq, Repr

/-- What has no meaning. -/
inductive Refusal where
  /-- An instruction not modelled yet; no arm of `exec` raises it. Safe. -/
  | notModelled (mnemonic : String)
  /-- A direct entry into the framer with a function code for which there is no request format (spec/30_encoding.md R68), a form no
  command reaches (log entry 11). Raised by `answerReject`; safe. -/
  | noRequestFormat (fc : Byte)
  deriving DecidableEq, Repr

/-- The machine right after reset: idle, nothing pending, no response available (R30, R31, R240). The three fields of the model's
own are empty by DESIGN CHOICE (log entry 16). -/
def State.reset : State :=
  { inputs := [], work := none, result := none, delivered := [], readback := none }

end Sys2Proof.Machine
end

