-- ==== Sys2Proof/Machine/Flags.lean ====
section
/-! DEFINITION. The engine has no flags or condition codes (spec/10_state.md R25): the only status a command produces is the status of
its response (spec/60_exceptions.md R200). -/

namespace Sys2Proof.Machine

/-- The status code of an error (R200). -/
def errorStatus : ErrorRecord → Byte
  | .malformedLength _ _ => 0x01#8
  | .checksumMismatch _ _ => 0x02#8
  | .unitMismatch _ _ => 0x03#8
  | .unsupportedFunctionCode _ => 0x04#8
  | .quantityOutOfRange _ _ => 0x05#8
  | .illegalCommand _ => 0x06#8

/-- The 8-bit status of a response (R200). -/
def statusOf : Response → Byte
  | .ok _ => 0x00#8
  | .error e => errorStatus e

end Sys2Proof.Machine
end

