-- ==== Sys2Proof/Machine/Ops.lean ====
section
/-! DEFINITION. The operations the meanings are written in: the transient state of a command (spec/10_state.md R27 to R30), ending a command
by `return` or `raise` (spec/00_scope.md R13, spec/60_exceptions.md R203, R204), and the host's own actions (R31, R240). An error
is a response and no trap, so there is no exception entry and no return from one (R203, R205). -/

namespace Sys2Proof.Machine

/-! ### The transient state -/

/-- The transient state a command starts with (R30). -/
def startWork : Work := { acc := seed, k := 0, i := 0, out := [], res := [] }

/-- One bit step of the CRC loop (spec/41_crc_engine.md R110). -/
def workBit (w : Work) : Work := { w with acc := crcBit w.acc, k := w.k + 1 }

/-- `n` bit steps. -/
def workBits : Nat → Work → Work
  | 0, w => w
  | n + 1, w => workBits n (workBit w)

/-- One byte of the CRC loop: XOR into the low byte, then eight bit steps from `k = 0` (R110). -/
def workByte (w : Work) (b : Byte) : Work :=
  let w' := workBits 8 { w with acc := w.acc ^^^ b.setWidth 16, k := 0 }
  { w' with i := w'.i + 1 }

/-- A CRC computation: the accumulator is set to the seed at its start, whatever it held (R27, R111). -/
def workCrc (w : Work) (bs : List Byte) : Work :=
  bs.foldl workByte { w with acc := seed, k := 0, i := 0 }

/-- `emit` of each byte in turn (R13, R28). -/
def workEmit (w : Work) (bs : List Byte) : Work := { w with out := w.out ++ bs }

/-- One pass of the encoding loop: the two bytes of a value, the byte index moving over both (R24, spec/40_register_marshaller.md
R102; log entry 20). -/
def workEncodeWord (w : Work) (v : Word) : Work :=
  { w with out := w.out ++ u16ToBe v, i := w.i + 2 }

/-- `encode_u16_seq` as the engine's loop into the output sequence, from byte index 0 (R24, R30, R102). -/
def workEncode (w : Work) (vs : List Word) : Work := vs.foldl workEncodeWord { w with i := 0 }

/-- One pass of the decoding loop: the value at the byte index `i` past `off`, the byte index moving over its two bytes (R24, R103; log
entry 20). Where two bytes are not there, which no rule's bound allows (spec/00_scope.md R11), no value is read. -/
def workDecodeWord (inp : List Byte) (off : Nat) (w : Work) : Work :=
  match memRead inp (off + w.i) 2 with
  | [hi, lo] => { w with res := w.res ++ [beToU16 hi lo], i := w.i + 2 }
  | _ => w

/-- `n` passes of the decoding loop. -/
def workDecodeWords (inp : List Byte) (off : Nat) : Nat → Work → Work
  | 0, w => w
  | n + 1, w => workDecodeWords inp off n (workDecodeWord inp off w)

/-- `decode_u16_seq` as the engine's loop into the result accumulator, which is empty before decoding, from byte index 0 (R24, R29,
R30, R103). -/
def workDecode (w : Work) (inp : List Byte) (off n : Nat) : Work :=
  workDecodeWords inp off n { w with res := [], i := 0 }

/-- The transient state of the command in progress; where none is in progress, the one a command starts with (R30). -/
def live (s : State) : Work := s.work.getD startWork

def setWork (s : State) (w : Work) : State := { s with work := some w }

/-- A command begins with fresh transient state (R27, R30). -/
def begin (s : State) : State := setWork s startWork

def runCrc (s : State) (bs : List Byte) : State := setWork s (workCrc (live s) bs)

def emit (s : State) (bs : List Byte) : State := setWork s (workEmit (live s) bs)

def emitValues (s : State) (vs : List Word) : State := setWork s (workEncode (live s) vs)

def decodeValues (s : State) (inp : List Byte) (off n : Nat) : State := setWork s (workDecode (live s) inp off n)

/-! ### Ending a command -/

/-- A command completes: its whole response is delivered and its transient state is gone (R22, R27, spec/20_memory.md R47). -/
def complete (s : State) (r : Response) : State :=
  { s with work := none, result := some r, delivered := s.delivered ++ [r] }

/-- `raise E(info)`: the command ends with the error and no payload; what it did so far is discarded (R13, R203, R204). -/
def raiseError (s : State) (e : ErrorRecord) : State := complete s (.error e)

/-- `return` of the accumulator (spec/41_crc_engine.md R112). -/
def returnCrc (s : State) : State := complete s (.ok (.crc (live s).acc))

/-- `return (received == expected)`, the expected CRC in the accumulator (spec/42_frame_verifier.md R122). -/
def returnMatch (s : State) (received : Word) : State := complete s (.ok (.matched (received == (live s).acc)))

/-- `return` of the output sequence (R28). -/
def returnFrame (s : State) : State := complete s (.ok (.frame (live s).out))

/-- `return` of the result accumulator (R29). -/
def returnRead (s : State) : State := complete s (.ok (.readResult (live s).res))

/-- `return` of the write result (spec/44_response_parser.md R158). -/
def returnWrite (s : State) (start qty : Word) : State := complete s (.ok (.writeResult start qty))

/-! ### The builder's and the parser's shared steps -/

/-- The common frame completion: the CRC of the output sequence is computed, appended low byte then high byte, and the output
sequence returned (spec/43_request_builder.md R130). -/
def sealFrame (s : State) : State :=
  let s₁ := runCrc s (live s).out
  returnFrame (emit s₁ (crcToLe (live s₁).acc))

/-- The limit that a write of `n` values exceeds, if any (R132). No value of the parameter rejects a count up to 127, so such a
count is accepted before the parameter is looked at. -/
def exceededLimit (m : WriteMax) (n : Nat) : Option Nat :=
  if n ≤ 127 then none
  else match m with
    | .unbounded => none
    | .max65535 => if 65535 < n then some 65535 else none
    | .max127 => some 127

/-- A request for a write, `N = values.length`, under a value `m` of `P_WRITE_MAX` (R132, R133, R134). -/
def buildWriteWith (m : WriteMax) (s : State) (unit : Byte) (start : Word) (values : List Word) : State :=
  match exceededLimit m values.length with
  | some limit => raiseError s (.quantityOutOfRange values.length limit)
  | none =>
    sealFrame (emitValues (emit s ([unit, 0x10#8] ++ u16ToBe start ++ u16ToBe (quantityField values.length) ++
      [byteCountField values.length])) values)

/-- The checksum check, then the unit check, then `decoded` (spec/44_response_parser.md R154, R155, R161). The last case, an input
that holds no checksum, is not reached behind a length check (R154) and answers as the verifier does (R120). -/
def checkThen (s : State) (inp : List Byte) (unit : Byte) (decoded : State → State) : State :=
  match receivedCrc inp, inp with
  | some received, actual :: _ =>
    let s₁ := runCrc s (body inp)
    if received ≠ (live s₁).acc then raiseError s₁ (.checksumMismatch received (live s₁).acc)
    else if actual ≠ unit then raiseError s₁ (.unitMismatch actual unit)
    else decoded s₁
  | _, _ => raiseError s (.malformedLength inp.length none)

/-- The 0x03 arm of the parser (R152, R153, R156, R157). -/
def readArm (s : State) (inp : List Byte) (unit : Byte) : State :=
  match inp with
  | _ :: _ :: bc :: _ =>
    if inp.length ≠ bc.toNat + 5 then raiseError s (.malformedLength inp.length (some (bc.toNat + 5)))
    else checkThen s inp unit fun s₁ => returnRead (decodeValues s₁ inp 3 (bc.toNat / 2))
  | _ => raiseError s (.malformedLength inp.length none)

/-- The 0x10 arm of the parser (R158). -/
def writeArm (s : State) (inp : List Byte) (unit : Byte) : State :=
  match inp with
  | [_, _, sh, sl, qh, ql, _, _] =>
    checkThen s inp unit fun s₁ => returnWrite s₁ (beToU16 sh sl) (beToU16 qh ql)
  | _ => raiseError s (.malformedLength inp.length (some 8))

/-! ### What is no instruction, and the host's actions -/

/-- The answer to a descriptor that decodes to no instruction: a reserved command code (spec/30_encoding.md R71), received bytes
without a function code (R151). A request format that does not exist is refused (log entry 11). -/
def answerReject (r : Reject) (s : State) : Host.Outcome State Fault Refusal :=
  match r with
  | .reservedCommand code => .next (raiseError (begin s) (.illegalCommand code))
  | .noFunctionCode len => .next (raiseError (begin s) (.malformedLength len none))
  | .noRequestFormat fc => .refused (.noRequestFormat fc)

/-- The value a response gives a result port (spec/10_state.md R22): the status always, the error record of an error, the
payload of a response with status OK. -/
def portValue : Response → ResultPort → Option PortValue
  | r, .status => some (.byte (statusOf r))
  | .ok (.crc v), .crc => some (.word v)
  | .ok (.matched v), .matched => some (.bool v)
  | .ok (.frame v), .frame => some (.bytes v)
  | .ok (.readResult v), .readResult => some (.words v)
  | .ok (.writeResult v _), .writeStart => some (.word v)
  | .ok (.writeResult _ v), .writeQty => some (.word v)
  | .error e, .errorRecord => some (.record e)
  | _, _ => none

/-- A host read of a result port: a fault where the result was never produced (R31, D21). DESIGN CHOICE (log entry 21; unsafe): with
several hosts on one engine the ports are one set, so a read shows the last response, whichever host's command it answers. -/
def hostRead (p : ResultPort) (s : State) : Host.Outcome State Fault Refusal :=
  match s.result with
  | none => .fault (.noResponse p)
  | some r =>
    match portValue r p with
    | some v => .next { s with readback := some v }
    | none => .fault (.portHasNoValue p)

/-- Reset of the engine between commands (spec/70_reset_and_hazards.md R240, R241): no command in progress, no response available. What
the host already has, and what it does afterwards, is the host's (log entry 9). DESIGN CHOICE (log entry 21; unsafe): one host's reset
clears the ports for every host. -/
def resetEngine (s : State) : State := { s with work := none, result := none }

end Sys2Proof.Machine
end

