-- ==== Sys2Proof/Machine/Builder.lean ====
section
/-! DEFINITION. The frame builder's commands: spec/43_request_builder.md R130 to R135. -/

namespace Sys2Proof.Machine

/-- BUILD_READ (R131): always status OK; no operand value is rejected. -/
def execBuildRead (unit : Byte) (start qty : Word) (s : State) : Host.Outcome State Fault Refusal :=
  .next (sealFrame (emit (begin s) ([unit, 0x03#8] ++ u16ToBe start ++ u16ToBe qty)))

/-- BUILD_WRITE (R132, R133, R134) under the machine's `P_WRITE_MAX`. -/
def execBuildWrite (unit : Byte) (start : Word) (values : List Word) (s : State) : Host.Outcome State Fault Refusal :=
  .next (buildWriteWith Config.pWriteMax (begin s) unit start values)

end Sys2Proof.Machine
end

