-- ==== Sys2Proof/Machine/CrcEngine.lean ====
section
/-! DEFINITION. The CRC engine's command: spec/41_crc_engine.md R112. -/

namespace Sys2Proof.Machine

/-- CRC16 (R112): always status OK. -/
def execCrc16 (inp : List Byte) (s : State) : Host.Outcome State Fault Refusal :=
  .next (returnCrc (runCrc (begin s) inp))

end Sys2Proof.Machine
end

