-- ==== Sys2Proof/Machine/Parser.lean ====
section
/-! DEFINITION. The frame parser's command: spec/44_response_parser.md R150 to R162. -/

namespace Sys2Proof.Machine

/-- PARSE_RESPONSE (R150): the dispatch on the function code, then the arm's checks in their fixed order (R161). -/
def execParseResponse (inp : List Byte) (unit : Byte) (s : State) : Host.Outcome State Fault Refusal :=
  match inp with
  | _ :: fc :: _ =>
    if fc = 0x03#8 then .next (readArm (begin s) inp unit)
    else if fc = 0x10#8 then .next (writeArm (begin s) inp unit)
    else .next (raiseError (begin s) (.unsupportedFunctionCode fc))
  | _ => .next (raiseError (begin s) (.malformedLength inp.length none))

end Sys2Proof.Machine
end

