-- ==== Sys2Proof/Machine/Verifier.lean ====
section
/-! DEFINITION. The frame verifier's command: spec/42_frame_verifier.md R120 to R123. -/

namespace Sys2Proof.Machine

/-- VERIFY_CRC (R123): MalformedLength for an input without a checksum (R120), else the match as a result (R122). -/
def execVerifyCrc (inp : List Byte) (s : State) : Host.Outcome State Fault Refusal :=
  match receivedCrc inp with
  | none => .next (raiseError (begin s) (.malformedLength inp.length none))
  | some received => .next (returnMatch (runCrc (begin s) (body inp)) received)

end Sys2Proof.Machine
end

