-- ==== Sys2Proof/Machine/Wire.lean ====
section
/-! DEFINITION. The wire rows of the opcode table: the request frames the framer emits (spec/30_encoding.md R61, R62, R68) and the arms
of the parser's function-code dispatch (R67). No command code selects them; a command reaches them through its own sub-block
(log entry 6). -/

namespace Sys2Proof.Machine

/-- RQ03_READ_HOLDING_REQUEST: the frame of R61, offset by offset (its rule in the table is R131). -/
def execRq03 (unit : Byte) (start qty : Word) (s : State) : Host.Outcome State Fault Refusal :=
  .next (sealFrame (emit (begin s) [unit, 0x03#8, hiByte start, loByte start, hiByte qty, loByte qty]))

/-- RQ10_WRITE_MULTIPLE_REQUEST: the frame of R62, or R132's error (its rule in the table is R133; log entry 8). -/
def execRq10 (unit : Byte) (start : Word) (values : List Word) (s : State) : Host.Outcome State Fault Refusal :=
  .next (buildWriteWith Config.pWriteMax (begin s) unit start values)

/-- RS03_READ_HOLDING_RESPONSE: the parser's 0x03 arm (R152). -/
def execRs03 (inp : List Byte) (unit : Byte) (s : State) : Host.Outcome State Fault Refusal :=
  .next (readArm (begin s) inp unit)

/-- RS10_WRITE_MULTIPLE_RESPONSE: the parser's 0x10 arm (R158). -/
def execRs10 (inp : List Byte) (unit : Byte) (s : State) : Host.Outcome State Fault Refusal :=
  .next (writeArm (begin s) inp unit)

/-- RS_UNSUPPORTED_FUNCTION: reported at once, with no check of length, checksum or unit (R160). -/
def execRsUnsupported (fc : Byte) (s : State) : Host.Outcome State Fault Refusal :=
  .next (raiseError (begin s) (.unsupportedFunctionCode fc))

end Sys2Proof.Machine
end

