-- ==== Sys2Proof/Machine/Dispatch.lean ====
section
/-! DEFINITION. One arm per constructor of Instr. -/

namespace Sys2Proof.Machine

def exec (i : Instr) (s : State) : Host.Outcome State Fault Refusal :=
  match i with
  | .crc16 inp => Sys2Proof.Machine.execCrc16 inp s
  | .verifyCrc inp => Sys2Proof.Machine.execVerifyCrc inp s
  | .buildRead unit start qty => Sys2Proof.Machine.execBuildRead unit start qty s
  | .buildWrite unit start values => Sys2Proof.Machine.execBuildWrite unit start values s
  | .parseResponse inp unit => Sys2Proof.Machine.execParseResponse inp unit s
  | .rq03 unit start qty => Sys2Proof.Machine.execRq03 unit start qty s
  | .rq10 unit start values => Sys2Proof.Machine.execRq10 unit start values s
  | .rs03 inp unit => Sys2Proof.Machine.execRs03 inp unit s
  | .rs10 inp unit => Sys2Proof.Machine.execRs10 inp unit s
  | .rsUnsupported fc => Sys2Proof.Machine.execRsUnsupported fc s

end Sys2Proof.Machine
end

