-- ==== Sys2Proof/Machine/Step.lean ====
section
/-! DEFINITION. One step takes the host's next action (spec/10_state.md R24: the host sequences commands; log entry 1). -/

namespace Sys2Proof.Machine

/-- One step: a command runs whole (spec/20_memory.md R47); with no action to take the engine is idle. -/
def step (s : State) : Host.Outcome State Fault Refusal :=
  match s.inputs with
  | [] => .next s
  | .issue d :: rest =>
    match decode d with
    | .ok i => exec i { s with inputs := rest }
    | .error r => answerReject r { s with inputs := rest }
  | .readPort p :: rest => hostRead p { s with inputs := rest }
  | .reset :: rest => .next (resetEngine { s with inputs := rest })

/-- The instruction of a table word put where `step` takes its next one: the host issues it first. -/
def State.withFetchWord (s : State) (nbits w : Nat) : State :=
  { s with inputs := .issue (tableDescriptor nbits w) :: s.inputs }

end Sys2Proof.Machine
end

