-- ==== Sys2Proof/Machine/Assembler.lean ====
section
/-! DEFINITION. The notation for commands of spec/30_encoding.md R72: its numbers, its operand lists and the descriptor a line of it
stands for. There are no pseudo-instructions. A host step of a program is no command, and `rN` names an entry of the run's
responses (`State.delivered`), so neither has a meaning here (log entry 18). -/

namespace Sys2Proof.Machine

/-- The five mnemonics of R72. -/
inductive Mnemonic where
  | crc16
  | verifyCrc
  | buildRead
  | buildWrite
  | parseResponse
  deriving DecidableEq, Repr

/-- A line of the notation, cut into its words. -/
inductive Token where
  | mnemonic (m : Mnemonic)
  | number (n : Nat)
  | comma
  | openBracket
  | closeBracket
  deriving DecidableEq, Repr

def digitValue (c : Char) : Option Nat :=
  if '0' ≤ c ∧ c ≤ '9' then some (c.toNat - '0'.toNat)
  else if 'a' ≤ c ∧ c ≤ 'f' then some (c.toNat - 'a'.toNat + 10)
  else if 'A' ≤ c ∧ c ≤ 'F' then some (c.toNat - 'A'.toNat + 10)
  else none

/-- The number that digits of a base spell, after `acc`. -/
def digits (base : Nat) : Nat → List Char → Option Nat
  | acc, [] => some acc
  | acc, c :: cs =>
    match digitValue c with
    | some d => if d < base then digits base (base * acc + d) cs else none
    | none => none

/-- A number: hexadecimal with a `0x` prefix, or decimal (R72). -/
def readNumber : List Char → Option Nat
  | '0' :: 'x' :: c :: cs => digits 16 0 (c :: cs)
  | [] => none
  | cs => digits 10 0 cs

/-- The rest of a list after its first number, up to its closing bracket; the tokens after it are given back. -/
def listTail : List Token → Option (List Nat × List Token)
  | .closeBracket :: rest => some ([], rest)
  | .comma :: .number n :: rest =>
    match listTail rest with
    | some (ns, rest') => some (n :: ns, rest')
    | none => none
  | _ => none

/-- A list `[b0, b1, ...]`; the tokens after it are given back. -/
def readList : List Token → Option (List Nat × List Token)
  | .openBracket :: .closeBracket :: rest => some ([], rest)
  | .openBracket :: .number n :: rest =>
    match listTail rest with
    | some (ns, rest') => some (n :: ns, rest')
    | none => none
  | _ => none

def toBytes (ns : List Nat) : List Byte := ns.map fun n : Nat => trunc8 (n : Int)

def toWords (ns : List Nat) : List Word := ns.map fun n : Nat => trunc16 (n : Int)

/-- The command a line stands for (R72), its numbers reduced to their ports' widths (R23). -/
def assemble : List Token → Option Descriptor
  | .mnemonic .crc16 :: rest =>
    match readList rest with
    | some (bs, []) => some (.command 0x01#8 { Ports.zero with inp := toBytes bs })
    | _ => none
  | .mnemonic .verifyCrc :: rest =>
    match readList rest with
    | some (bs, []) => some (.command 0x02#8 { Ports.zero with inp := toBytes bs })
    | _ => none
  | [.mnemonic .buildRead, .number u, .comma, .number s, .comma, .number q] =>
    some (.command 0x03#8 { Ports.zero with unit := trunc8 u, start := trunc16 s, qty := trunc16 q })
  | .mnemonic .buildWrite :: .number u :: .comma :: .number s :: .comma :: rest =>
    match readList rest with
    | some (vs, []) =>
      some (.command 0x04#8 { Ports.zero with unit := trunc8 u, start := trunc16 s, values := toWords vs })
    | _ => none
  | .mnemonic .parseResponse :: rest =>
    match readList rest with
    | some (bs, [.comma, .number u]) => some (.command 0x05#8 { Ports.zero with inp := toBytes bs, unit := trunc8 u })
    | _ => none
  | _ => none

/-- The tokens of a list after its first number. -/
def tailTokens : List Nat → List Token
  | [] => [.closeBracket]
  | n :: ns => .comma :: .number n :: tailTokens ns

/-- The tokens of a list. -/
def listTokens : List Nat → List Token
  | [] => [.openBracket, .closeBracket]
  | n :: ns => .openBracket :: .number n :: tailTokens ns

def byteTokens (bs : List Byte) : List Token := listTokens (bs.map (·.toNat))

def wordTokens (vs : List Word) : List Token := listTokens (vs.map (·.toNat))

/-- The line of a command (R72); a wire row of the table has none. -/
def lineOf : Instr → Option (List Token)
  | .crc16 inp => some (.mnemonic .crc16 :: byteTokens inp)
  | .verifyCrc inp => some (.mnemonic .verifyCrc :: byteTokens inp)
  | .buildRead u s q =>
    some [.mnemonic .buildRead, .number u.toNat, .comma, .number s.toNat, .comma, .number q.toNat]
  | .buildWrite u s vs =>
    some (.mnemonic .buildWrite :: .number u.toNat :: .comma :: .number s.toNat :: .comma :: wordTokens vs)
  | .parseResponse inp u => some (.mnemonic .parseResponse :: (byteTokens inp ++ [.comma, .number u.toNat]))
  | .rq03 _ _ _ => none
  | .rq10 _ _ _ => none
  | .rs03 _ _ => none
  | .rs10 _ _ => none
  | .rsUnsupported _ => none

end Sys2Proof.Machine
end

