-- ==== Sys2Proof/Safety.lean ====
section
/-! DEFINITION. The terms the statements use: which responses are genuine, which errors a command may raise (spec/60_exceptions.md R202), the
invariant of the machine, and the flip of one bit of a frame (spec/41_crc_engine.md R114). -/

namespace Sys2Proof.Machine

/-- An error record says what its error means (R200, R201): the two values it compares differ, and the code it names is one
the engine does not serve. -/
def ErrorGenuine : ErrorRecord → Prop
  | .malformedLength actual expected => expected ≠ some actual ∧ (expected = none → actual < 3)
  | .checksumMismatch received computed => received ≠ computed
  | .unitMismatch actual expected => actual ≠ expected
  | .unsupportedFunctionCode code => code ≠ 0x03#8 ∧ code ≠ 0x10#8
  | .quantityOutOfRange count limit => Config.pWriteMax.limit = some limit ∧ limit < count
  | .illegalCommand code => code.toNat = 0 ∨ 6 ≤ code.toNat

/-- A payload is one a command can return: a frame is a request frame with a valid CRC (spec/43_request_builder.md R135), a read result has
at most 127 values (spec/70_reset_and_hazards.md R249). -/
def PayloadGenuine : Payload → Prop
  | .crc _ => True
  | .matched _ => True
  | .frame f => 8 ≤ f.length ∧ verifyCrc f = some true ∧ (f[1]? = some 0x03#8 ∨ f[1]? = some 0x10#8)
  | .readResult vs => vs.length ≤ 127
  | .writeResult _ _ => True

def ResponseGenuine : Response → Prop
  | .ok p => PayloadGenuine p
  | .error e => ErrorGenuine e

/-- The invariant of the state between steps: no command is in progress (R27, R47), the result ports hold the last response
delivered (R22, R31), and every response delivered is genuine. -/
def Inv (s : State) : Prop :=
  s.work = none ∧
  (∀ r, s.result = some r → s.delivered.getLast? = some r) ∧
  (∀ r ∈ s.delivered, ResponseGenuine r)

/-- The errors R202 allows an instruction; the wire rows have those of the command whose sub-block they belong to, as far as
their own rule raises them (R133, R152, R158, R160). -/
def mayRaise : Instr → ErrorRecord → Bool
  | .crc16 _, _ => false
  | .verifyCrc _, .malformedLength _ _ => true
  | .verifyCrc _, _ => false
  | .buildRead _ _ _, _ => false
  | .buildWrite _ _ _, .quantityOutOfRange _ _ => Config.pWriteMax != .unbounded
  | .buildWrite _ _ _, _ => false
  | .parseResponse _ _, .malformedLength _ _ => true
  | .parseResponse _ _, .checksumMismatch _ _ => true
  | .parseResponse _ _, .unitMismatch _ _ => true
  | .parseResponse _ _, .unsupportedFunctionCode _ => true
  | .parseResponse _ _, _ => false
  | .rq03 _ _ _, _ => false
  | .rq10 _ _ _, .quantityOutOfRange _ _ => Config.pWriteMax != .unbounded
  | .rq10 _ _ _, _ => false
  | .rs03 _ _, .malformedLength _ _ => true
  | .rs03 _ _, .checksumMismatch _ _ => true
  | .rs03 _ _, .unitMismatch _ _ => true
  | .rs03 _ _, _ => false
  | .rs10 _ _, .malformedLength _ _ => true
  | .rs10 _ _, .checksumMismatch _ _ => true
  | .rs10 _ _, .unitMismatch _ _ => true
  | .rs10 _ _, _ => false
  | .rsUnsupported _, .unsupportedFunctionCode _ => true
  | .rsUnsupported _, _ => false

/-- The kinds of payload an instruction may return with status OK (spec/10_state.md R22); a wire row returns what the command whose
sub-block it belongs to returns for it (R131, R133, R152, R158). -/
def mayReturn : Instr → Payload → Bool
  | .crc16 _, .crc _ => true
  | .crc16 _, _ => false
  | .verifyCrc _, .matched _ => true
  | .verifyCrc _, _ => false
  | .buildRead _ _ _, .frame _ => true
  | .buildRead _ _ _, _ => false
  | .buildWrite _ _ _, .frame _ => true
  | .buildWrite _ _ _, _ => false
  | .parseResponse _ _, .readResult _ => true
  | .parseResponse _ _, .writeResult _ _ => true
  | .parseResponse _ _, _ => false
  | .rq03 _ _ _, .frame _ => true
  | .rq03 _ _ _, _ => false
  | .rq10 _ _ _, .frame _ => true
  | .rq10 _ _ _, _ => false
  | .rs03 _ _, .readResult _ => true
  | .rs03 _ _, _ => false
  | .rs10 _ _, .writeResult _ _ => true
  | .rs10 _ _, _ => false
  | .rsUnsupported _, _ => false

/-- What R22 and R202 allow an instruction to answer. -/
def mayAnswer (i : Instr) : Response → Bool
  | .ok p => mayReturn i p
  | .error e => mayRaise i e

/-- The pseudocode of spec/44_response_parser.md R150, line by line, as a function of the operands (spec/10_state.md R20): an index is read
only behind the length check that guards it (spec/00_scope.md R11), so the `0` of `getD` is never the value read. -/
def parsePseudocode (inp : List Byte) (unit : Byte) : Response :=
  let len := inp.length
  let fc := inp.getD 1 0
  let bc := (inp.getD 2 0).toNat
  let received := leToU16 (inp.getD (len - 2) 0) (inp.getD (len - 1) 0)
  let computed := crc16 (inp.take (len - 2))
  if len < 2 then .error (.malformedLength len none)
  else if fc = 0x03#8 then
    if len < 3 then .error (.malformedLength len none)
    else if len ≠ bc + 5 then .error (.malformedLength len (some (bc + 5)))
    else if received ≠ computed then .error (.checksumMismatch received computed)
    else if inp.getD 0 0 ≠ unit then .error (.unitMismatch (inp.getD 0 0) unit)
    else .ok (.readResult ((List.range (bc / 2)).map fun j =>
      beToU16 (inp.getD (3 + 2 * j) 0) (inp.getD (3 + 2 * j + 1) 0)))
  else if fc = 0x10#8 then
    if len ≠ 8 then .error (.malformedLength len (some 8))
    else if received ≠ computed then .error (.checksumMismatch received computed)
    else if inp.getD 0 0 ≠ unit then .error (.unitMismatch (inp.getD 0 0) unit)
    else .ok (.writeResult (beToU16 (inp.getD 2 0) (inp.getD 3 0)) (beToU16 (inp.getD 4 0) (inp.getD 5 0)))
  else .error (.unsupportedFunctionCode fc)

/-- A byte sequence with one bit flipped: bit `n % 8` of byte `n / 8`. -/
def flipBit (bs : List Byte) (n : Nat) : List Byte :=
  bs.modify (n / 8) fun b => b ^^^ (1#8 <<< (n % 8))

end Sys2Proof.Machine
end

