-- ==== Sys2Proof/Certificates/Slice0/Obligations.lean ====
section
/-! DEFINITION. The statements for the provers. Each docstring names the rules of spec/ its statement formalises. `complete s r` is the state
in which a command issued at `s` has answered `r` and done nothing else (`ExecChangesOnlyItsResponse` spells it out). -/

open Sys2Proof Sys2Proof.Machine

/-! ### Reset, the invariant, the step -/

/-- R30, R31, R240: after reset no command is in progress or pending, no response is available, and the engine accepts a command
at once. That a step with no action of the host to take changes nothing is the model's choice (log entry 1). -/
def Obligations.ResetLeavesTheEngineIdle : Prop :=
  State.reset.work = none ∧ State.reset.result = none ∧ State.reset.inputs = [] ∧
    (∀ s : State, s.inputs = [] → step s = .next s) ∧
    ∀ d i, decode d = .ok i → step { State.reset with inputs := [.issue d] } = exec i State.reset

/-- The invariant of every step holds after reset (R30, R31). -/
def Obligations.ResetMeetsTheInvariant : Prop := Inv State.reset

/-- Every step keeps the invariant, from every state that meets it: no command is left in progress (R27, R47), the result ports
hold the last response delivered (R22), and every response delivered is genuine: a frame passes the verifier (R135), an error
record names two values that differ or a code the engine does not serve (R200, R201). -/
def Obligations.EveryStepKeepsTheInvariant : Prop :=
  ∀ s t : State, Inv s → step s = .next t → Inv t

/-- A step at whose head a descriptor decodes to an instruction runs exactly that instruction, its action taken off the host's
list (R24, R47). -/
def Obligations.StepRunsTheDecodedInstruction : Prop :=
  ∀ (s : State) (d : Descriptor) (rest : List HostAction) (i : Instr),
    s.inputs = .issue d :: rest → decode d = .ok i → step s = exec i { s with inputs := rest }

/-- R245: each command is total on its operand types: with any command code and any operands, a step answers a next state, whose result
ports hold exactly one new response. -/
def Obligations.EveryIssuedCommandIsAnswered : Prop :=
  ∀ (s : State) (cmd : Byte) (ports : Ports) (rest : List HostAction),
    s.inputs = .issue (.command cmd ports) :: rest →
    ∃ r, step s = .next (complete { s with inputs := rest } r)

/-- R71, R200: a reserved code performs nothing and answers IllegalCommand with the code. -/
def Obligations.ReservedCommandCodesAreIllegal : Prop :=
  ∀ (s : State) (cmd : Byte) (ports : Ports) (rest : List HostAction),
    s.inputs = .issue (.command cmd ports) :: rest → (cmd.toNat = 0 ∨ 6 ≤ cmd.toNat) →
    step s = .next (complete { s with inputs := rest } (.error (.illegalCommand cmd))) ∧
      statusOf (.error (.illegalCommand cmd)) = 0x06#8

/-- What an instruction changes, field by field, for all ten instructions: whatever state it is executed in, it answers a next state in
which the host's list and the host's last read are as before, no command is in progress, the result ports hold its one response, and that
response is appended to those delivered (R22, R47, R203, R204). -/
def Obligations.ExecChangesOnlyItsResponse : Prop :=
  ∀ (i : Instr) (s : State), ∃ (r : Response) (t : State), exec i s = .next t ∧
    t.inputs = s.inputs ∧ t.readback = s.readback ∧ t.work = none ∧ t.result = some r ∧
    t.delivered = s.delivered ++ [r]

/-- R20, R52 (a): the response of an instruction is a function of the instruction with its operands alone. -/
def Obligations.ResponseDependsOnOperandsAlone : Prop :=
  ∃ f : Instr → Response, ∀ (i : Instr) (s : State), exec i s = .next (complete s (f i))

/-- R27: what transient state an earlier computation left, if it left any, changes nothing. -/
def Obligations.TransientStateNeverLeaks : Prop :=
  ∀ (i : Instr) (s : State) (w : Option Work), exec i { s with work := w } = exec i s

/-- R52 (b), R250: commands are answered in issue order, one response per command, each the response it would get alone. -/
def Obligations.CommandsCompleteInIssueOrder : Prop :=
  ∃ f : Byte → Ports → Response, ∀ (cs : List (Byte × Ports)) (s : State),
    s.inputs = cs.map (fun c => .issue (.command c.1 c.2)) →
    ∃ t : State, Host.Core.run Sys2Proof.core cs.length s = .next t ∧ t.inputs = [] ∧
      t.delivered = s.delivered ++ cs.map fun c => f c.1 c.2

/-- R202, R22: an instruction answers only with the payload and the errors its rule gives it. R22 and R202 tabulate the five commands; what
the wire rows may answer is the model's, from R133, R152, R158 and R160 (log entries 6 and 8). -/
def Obligations.AnswersAreThoseOfTheInstruction : Prop :=
  ∀ (i : Instr) (s t : State) (r : Response),
    exec i s = .next t → t.result = some r → mayAnswer i r = true

/-! ### Decoding and encoding -/

/-- R70: the five command codes and their operands (R21). -/
def Obligations.CommandCodesSelectTheirOperations : Prop :=
  ∀ p : Ports,
    decode (.command 0x01#8 p) = .ok (.crc16 p.inp) ∧
    decode (.command 0x02#8 p) = .ok (.verifyCrc p.inp) ∧
    decode (.command 0x03#8 p) = .ok (.buildRead p.unit p.start p.qty) ∧
    decode (.command 0x04#8 p) = .ok (.buildWrite p.unit p.start p.values) ∧
    decode (.command 0x05#8 p) = .ok (.parseResponse p.inp p.unit)

/-- R67: the parser's dispatch on all 8 bits of the byte at offset 1. -/
def Obligations.FunctionCodeSelectsTheArm : Prop :=
  ∀ (addr fc unit : Byte) (rest : List Byte),
    decode (.parser (addr :: fc :: rest) unit) =
      .ok (if fc.toNat = 3 then .rs03 (addr :: fc :: rest) unit
        else if fc.toNat = 16 then .rs10 (addr :: fc :: rest) unit
        else .rsUnsupported fc)

/-- A few words of the opcode table decode to their rows (R67, R70; the reading of a shared word is log entry 7's). -/
def Obligations.TableWordsDecodeToTheirRows : Prop :=
  decodeTableWord 8 0b00000001 = some (.crc16 []) ∧
  decodeTableWord 8 0b00000010 = some (.verifyCrc []) ∧
  decodeTableWord 8 0b00000011 = some (.buildRead 0 0 0) ∧
  decodeTableWord 8 0b00000100 = some (.buildWrite 0 0 []) ∧
  decodeTableWord 8 0b00000101 = some (.parseResponse [] 0) ∧
  decodeTableWord 8 0b00010000 = some (.rq10 0 0 []) ∧
  decodeTableWord 16 0b00010000 = some (.rs10 [0, 0x10, 0, 0, 0, 0, 0, 0] 0)

/-- Whatever the decoder accepts is well formed (R67, R69, R71). -/
def Obligations.DecodedInstructionsAreWellFormed : Prop :=
  ∀ (d : Descriptor) (i : Instr), decode d = .ok i → i.wellFormed = true

/-- Decoding what the encoder gives of a well-formed instruction gives it back, for all ten (R67, R69, R70). -/
def Obligations.DecodeUndoesEncode : Prop :=
  ∀ i : Instr, i.wellFormed = true → decode (encode i) = .ok i

/-- R61, R62: no field of a request frame is dropped: read back from its bytes, a frame gives every operand at every value, for a write
of any 0 to 127 values, up to which the byte count is exact (R134). -/
def Obligations.RequestFramesReadBackWhole : Prop :=
  (∀ (unit : Byte) (start qty : Word), readRequest (rq03Bytes unit start qty) = .ok (.rq03 unit start qty)) ∧
  (∀ (unit : Byte) (start : Word) (values : List Word), values.length ≤ 127 →
    readRequest (rq10Bytes unit start values) = .ok (.rq10 unit start values))

/-- R72, R23: a command written in the notation, its operands at any value, stands for that command's code and operands. -/
def Obligations.NotationStandsForTheCommand : Prop :=
  ∀ (i : Instr) (line : List Token), lineOf i = some line → assemble line = some (encode i)

/-! ### The register marshaller and the CRC -/

/-- R100, R101, R113, R121: the byte orders, as numbers. -/
def Obligations.FieldsAreAssembledInTheirByteOrder : Prop :=
  (∀ v : Word, (u16ToBe v).map (·.toNat) = [v.toNat / 256, v.toNat % 256]) ∧
  (∀ hi lo : Byte, (beToU16 hi lo).toNat = 256 * hi.toNat + lo.toNat) ∧
  (∀ c : Word, (crcToLe c).map (·.toNat) = [c.toNat % 256, c.toNat / 256]) ∧
  (∀ (bs : List Byte) (lo hi : Byte), ∃ c, receivedCrc (bs ++ [lo, hi]) = some c ∧
    c.toNat = lo.toNat + 256 * hi.toNat)

/-- R104: the round trips of the marshaller. -/
def Obligations.MarshallerRoundTrips : Prop :=
  (∀ v : Word, beToU16 (hiByte v) (loByte v) = v) ∧
  (∀ hi lo : Byte, u16ToBe (beToU16 hi lo) = [hi, lo]) ∧
  (∀ vs : List Word, decodeU16Seq (encodeU16Seq vs) 0 vs.length = vs)

/-- R102: element `j` of the input lands at offsets `2j` and `2j + 1` of the `2N` bytes. -/
def Obligations.EncodedSequenceKeepsOrder : Prop :=
  ∀ vs : List Word, (encodeU16Seq vs).length = 2 * vs.length ∧
    ∀ (j : Nat) (v : Word), vs[j]? = some v →
      (encodeU16Seq vs)[2 * j]? = some (hiByte v) ∧ (encodeU16Seq vs)[2 * j + 1]? = some (loByte v)

/-- R103: `n` values, value `j` from offsets `off + 2j` and `off + 2j + 1`; bytes at or beyond `off + 2n` are not read. -/
def Obligations.DecodedSequenceReadsItsOffsets : Prop :=
  ∀ (s : List Byte) (off n : Nat), off + 2 * n ≤ s.length →
    (decodeU16Seq s off n).length = n ∧
    (∀ (j : Nat) (hi lo : Byte), j < n → s[off + 2 * j]? = some hi → s[off + 2 * j + 1]? = some lo →
      (decodeU16Seq s off n)[j]? = some (beToU16 hi lo)) ∧
    ∀ tail : List Byte, decodeU16Seq (s.take (off + 2 * n) ++ tail) off n = decodeU16Seq s off n

/-- R23: a host integer is reduced modulo the width of its port. -/
def Obligations.HostIntegersAreReducedToPortWidth : Prop :=
  ∀ (inp values : List Int) (unit start qty : Int),
    ((Ports.ofHost inp unit start qty values).unit.toNat : Int) = unit % 256 ∧
    ((Ports.ofHost inp unit start qty values).start.toNat : Int) = start % 65536 ∧
    ((Ports.ofHost inp unit start qty values).qty.toNat : Int) = qty % 65536 ∧
    (Ports.ofHost inp unit start qty values).inp.map (fun b => (b.toNat : Int)) = inp.map (· % 256) ∧
    (Ports.ofHost inp unit start qty values).values.map (fun v => (v.toNat : Int)) = values.map (· % 65536)

/-- R110, R243: the bitwise step is the byte-at-a-time table method, whose table is the step from a zero high byte. -/
def Obligations.BitwiseStepIsTheTableMethod : Prop :=
  ∀ (acc : Word) (b : Byte), crcStep acc b = (acc >>> 8) ^^^ crcStep ((loByte acc ^^^ b).setWidth 16) 0

/-- R110, R249: the CRC of a sequence makes eight bit steps per byte, and the last leaves the CRC in the accumulator. -/
def Obligations.CrcMakesEightBitStepsPerByte : Prop :=
  ∀ bs : List Byte, (crcTrace seed bs).length = 8 * bs.length ∧
    (seed :: crcTrace seed bs).getLast? = some (crc16 bs)

/-- R27, R110, R111: the engine's loop, on its accumulator, bit counter and byte index, whatever they held, computes `crc16`; it ends
with the byte index at the length and touches no other transient state. -/
def Obligations.CrcLoopComputesTheCrc : Prop :=
  ∀ (w : Work) (bs : List Byte),
    workCrc w bs = { w with acc := crc16 bs, k := 0, i := bs.length }

/-- R24, R30, R102, R103: the engine's marshalling loops, whatever the byte index held, run it from 0 over the bytes of the values: encoding
appends them to the output sequence, decoding fills the result accumulator, whatever it held; each touches no other transient
state. That the index moves by two bytes a value is the model's reading (log entry 20). -/
def Obligations.MarshallingLoopsRunTheByteIndex : Prop :=
  (∀ (w : Work) (vs : List Word),
    workEncode w vs = { w with out := w.out ++ encodeU16Seq vs, i := 2 * vs.length }) ∧
  (∀ (w : Work) (inp : List Byte) (off n : Nat), off + 2 * n ≤ inp.length →
    workDecode w inp off n = { w with res := decodeU16Seq inp off n, i := 2 * n })

/-- R114 (b): a body followed by its CRC, low byte first, verifies. -/
def Obligations.SealedBodyVerifies : Prop :=
  ∀ bs : List Byte, verifyCrc (bs ++ crcToLe (crc16 bs)) = some true

/-- R114 (c): flipping any single bit of a valid frame, in its body or in its CRC, makes the verifier answer false. -/
def Obligations.SingleBitFlipIsDetected : Prop :=
  ∀ (frame : List Byte) (n : Nat), verifyCrc frame = some true → n < 8 * frame.length →
    verifyCrc (flipBit frame n) = some false

/-- R114 (d), which the spec marks as from general knowledge: the CRC of a body and its CRC is zero. -/
def Obligations.ResidueIsZero : Prop :=
  ∀ bs : List Byte, crc16 (bs ++ crcToLe (crc16 bs)) = 0

/-! ### CRC16 and VERIFY_CRC -/

/-- R112: CRC16 completes with the CRC of its input, in every state and for every input. -/
def Obligations.Crc16ReturnsTheCrc : Prop :=
  ∀ (inp : List Byte) (s : State), exec (.crc16 inp) s = .next (complete s (.ok (.crc (crc16 inp))))

/-- R120, R122, R123: below two bytes VERIFY_CRC raises MalformedLength, with no expected length; from two bytes on it completes
with the comparison, and a mismatch is a result. -/
def Obligations.VerifyReturnsTheComparison : Prop :=
  (∀ (inp : List Byte) (s : State), inp.length < 2 →
    exec (.verifyCrc inp) s = .next (complete s (.error (.malformedLength inp.length none)))) ∧
  (∀ (inp : List Byte) (s : State), 2 ≤ inp.length →
    exec (.verifyCrc inp) s = .next (complete s (.ok (.matched (decide
      (leToU16 (inp.getD (inp.length - 2) 0) (inp.getD (inp.length - 1) 0) = crc16 (inp.take (inp.length - 2))))))))

/-! ### BUILD_READ and BUILD_WRITE -/

/-- R131, R61, R130: the eight bytes of a read request, in every state and for every operand value. -/
def Obligations.BuildReadReturnsTheRequest : Prop :=
  ∀ (unit : Byte) (start qty : Word) (s : State),
    exec (.buildRead unit start qty) s = .next (complete s (.ok (.frame
      [unit, 0x03#8, hiByte start, loByte start, hiByte qty, loByte qty,
        loByte (crc16 [unit, 0x03#8, hiByte start, loByte start, hiByte qty, loByte qty]),
        hiByte (crc16 [unit, 0x03#8, hiByte start, loByte start, hiByte qty, loByte qty])])))

/-- R133, R132: BUILD_WRITE under the machine's own `P_WRITE_MAX`, whichever it is: more values than its bound raise
QuantityOutOfRange, any other count gives the frame of R62. -/
def Obligations.BuildWriteReturnsTheRequestOrTheLimit : Prop :=
  ∀ (unit : Byte) (start : Word) (values : List Word) (s : State),
    exec (.buildWrite unit start values) s = .next (complete s
      (match Config.pWriteMax.limit with
        | none => .ok (.frame (rq10Bytes unit start values))
        | some limit =>
          if limit < values.length then .error (.quantityOutOfRange values.length limit)
          else .ok (.frame (rq10Bytes unit start values))))

/-- R132, for every value of the parameter: a count above the bound raises QuantityOutOfRange and returns no frame. -/
def Obligations.CountAboveTheBoundIsOutOfRange : Prop :=
  ∀ (m : WriteMax) (s : State) (unit : Byte) (start : Word) (values : List Word) (limit : Nat),
    m.limit = some limit → limit < values.length →
    buildWriteWith m (begin s) unit start values =
      complete s (.error (.quantityOutOfRange values.length limit))

/-- R133, R134: no value of the parameter rejects up to 127 values: BUILD_WRITE completes with the frame. -/
def Obligations.SmallWritesAlwaysComplete : Prop :=
  ∀ (unit : Byte) (start : Word) (values : List Word) (s : State), values.length ≤ 127 →
    exec (.buildWrite unit start values) s = .next (complete s (.ok (.frame (rq10Bytes unit start values))))

/-- R62, R134, for every value of the parameter and every count it accepts: the frame offset by offset, its quantity `N mod 65536`, its
byte count `2N mod 256`, all `N` values, and its CRC. -/
def Obligations.WriteRequestFieldsStandAtTheirOffsets : Prop :=
  ∀ (m : WriteMax) (s : State) (unit : Byte) (start : Word) (values : List Word),
    (∀ limit, m.limit = some limit → values.length ≤ limit) →
    ∃ f, buildWriteWith m (begin s) unit start values = complete s (.ok (.frame f)) ∧
      f.length = 9 + 2 * values.length ∧
      f[0]? = some unit ∧ f[1]? = some 0x10#8 ∧
      f[2]? = some (hiByte start) ∧ f[3]? = some (loByte start) ∧
      f[4]?.map (·.toNat) = some (values.length % 65536 / 256) ∧
      f[5]?.map (·.toNat) = some (values.length % 65536 % 256) ∧
      f[6]?.map (·.toNat) = some (2 * values.length % 256) ∧
      (∀ (j : Nat) (v : Word), values[j]? = some v →
        f[7 + 2 * j]? = some (hiByte v) ∧ f[8 + 2 * j]? = some (loByte v)) ∧
      f[7 + 2 * values.length]? = some (loByte (crc16 (f.take (7 + 2 * values.length)))) ∧
      f[8 + 2 * values.length]? = some (hiByte (crc16 (f.take (7 + 2 * values.length))))

/-- R135: every frame the builders return verifies, and has its length, its function code and its unit. -/
def Obligations.BuiltFramesObeyTheBuilderLaws : Prop :=
  (∀ (unit : Byte) (start qty : Word) (s t : State) (f : List Byte),
    exec (.buildRead unit start qty) s = .next t → t.result = some (.ok (.frame f)) →
    verifyCrc f = some true ∧ f.length = 8 ∧ f[1]? = some 0x03#8 ∧ f[0]? = some unit) ∧
  (∀ (unit : Byte) (start : Word) (values : List Word) (s t : State) (f : List Byte),
    exec (.buildWrite unit start values) s = .next t → t.result = some (.ok (.frame f)) →
    verifyCrc f = some true ∧ f.length = 9 + 2 * values.length ∧ f[1]? = some 0x10#8 ∧ f[0]? = some unit)

/-- R68: no instruction builds a frame with a function code other than 0x03 and 0x10. -/
def Obligations.OnlyTwoFunctionCodesAreBuilt : Prop :=
  ∀ (i : Instr) (s t : State) (f : List Byte),
    exec i s = .next t → t.result = some (.ok (.frame f)) → f[1]? = some 0x03#8 ∨ f[1]? = some 0x10#8

/-! ### PARSE_RESPONSE -/

/-- R150, with the order of its checks (R161): the parser answers what its pseudocode gives, for every input and expected unit. -/
def Obligations.ParseResponseFollowsItsPseudocode : Prop :=
  ∀ (inp : List Byte) (unit : Byte) (s : State),
    exec (.parseResponse inp unit) s = .next (complete s (parsePseudocode inp unit))

/-- R151: an input too short to hold a function code. -/
def Obligations.ParseRejectsInputsWithoutAFunctionCode : Prop :=
  ∀ (inp : List Byte) (unit : Byte) (s : State), inp.length < 2 →
    exec (.parseResponse inp unit) s = .next (complete s (.error (.malformedLength inp.length none)))

/-- R160: any other function code is reported at once, whatever the length, the checksum and the unit. -/
def Obligations.OtherFunctionCodesAreUnsupported : Prop :=
  ∀ (addr fc unit : Byte) (rest : List Byte) (s : State), fc ≠ 0x03#8 → fc ≠ 0x10#8 →
    exec (.parseResponse (addr :: fc :: rest) unit) s = .next (complete s (.error (.unsupportedFunctionCode fc)))

/-- R153, and R158's first step: the length check of both arms, before any other: a 0x03 response without a byte count, one whose
length is not `bc + 5`, and a 0x10 response whose length is not 8. -/
def Obligations.ResponseLengthIsCheckedFirst : Prop :=
  (∀ (addr unit : Byte) (s : State),
    exec (.parseResponse [addr, 0x03#8] unit) s = .next (complete s (.error (.malformedLength 2 none)))) ∧
  (∀ (addr bc unit : Byte) (rest : List Byte) (s : State), rest.length + 3 ≠ bc.toNat + 5 →
    exec (.parseResponse (addr :: 0x03#8 :: bc :: rest) unit) s =
      .next (complete s (.error (.malformedLength (rest.length + 3) (some (bc.toNat + 5)))))) ∧
  (∀ (addr unit : Byte) (rest : List Byte) (s : State), rest.length + 2 ≠ 8 →
    exec (.parseResponse (addr :: 0x10#8 :: rest) unit) s =
      .next (complete s (.error (.malformedLength (rest.length + 2) (some 8)))))

/-- R154: behind the length check, in both arms, a CRC field that is not the CRC of the body is a ChecksumMismatch, whatever the unit. -/
def Obligations.WrongChecksumIsReported : Prop :=
  (∀ (addr bc lo hi unit : Byte) (data : List Byte) (s : State), data.length = bc.toNat →
    leToU16 lo hi ≠ crc16 (addr :: 0x03#8 :: bc :: data) →
    exec (.parseResponse (addr :: 0x03#8 :: bc :: (data ++ [lo, hi])) unit) s =
      .next (complete s (.error (.checksumMismatch (leToU16 lo hi) (crc16 (addr :: 0x03#8 :: bc :: data)))))) ∧
  (∀ (addr sh sl qh ql lo hi unit : Byte) (s : State),
    leToU16 lo hi ≠ crc16 [addr, 0x10#8, sh, sl, qh, ql] →
    exec (.parseResponse [addr, 0x10#8, sh, sl, qh, ql, lo, hi] unit) s =
      .next (complete s (.error (.checksumMismatch (leToU16 lo hi) (crc16 [addr, 0x10#8, sh, sl, qh, ql])))))

/-- R155: behind the checksum check, in both arms, another unit than the expected one is a UnitMismatch, and no unit is special; the
unit check runs after the checksum check, so with a wrong checksum and a wrong unit the answer is ChecksumMismatch. -/
def Obligations.WrongUnitIsReported : Prop :=
  (∀ (addr bc unit : Byte) (data : List Byte) (s : State), data.length = bc.toNat → addr ≠ unit →
    exec (.parseResponse (sealed (addr :: 0x03#8 :: bc :: data)) unit) s =
      .next (complete s (.error (.unitMismatch addr unit)))) ∧
  (∀ (addr sh sl qh ql unit : Byte) (s : State), addr ≠ unit →
    exec (.parseResponse (sealed [addr, 0x10#8, sh, sl, qh, ql]) unit) s =
      .next (complete s (.error (.unitMismatch addr unit)))) ∧
  (∀ (addr bc lo hi unit : Byte) (data : List Byte) (s : State), data.length = bc.toNat → addr ≠ unit →
    leToU16 lo hi ≠ crc16 (addr :: 0x03#8 :: bc :: data) →
    exec (.parseResponse (addr :: 0x03#8 :: bc :: (data ++ [lo, hi])) unit) s =
      .next (complete s (.error (.checksumMismatch (leToU16 lo hi) (crc16 (addr :: 0x03#8 :: bc :: data)))))) ∧
  (∀ (addr sh sl qh ql lo hi unit : Byte) (s : State), addr ≠ unit →
    leToU16 lo hi ≠ crc16 [addr, 0x10#8, sh, sl, qh, ql] →
    exec (.parseResponse [addr, 0x10#8, sh, sl, qh, ql, lo, hi] unit) s =
      .next (complete s (.error (.checksumMismatch (leToU16 lo hi) (crc16 [addr, 0x10#8, sh, sl, qh, ql])))))

/-- R156, R157: a valid 0x03 response completes with `bc / 2` values, read from offset 3 on; with an odd byte count the last data
byte is ignored. -/
def Obligations.ValidReadResponseIsDecoded : Prop :=
  ∀ (unit bc : Byte) (data : List Byte) (s : State), data.length = bc.toNat →
    exec (.parseResponse (sealed (unit :: 0x03#8 :: bc :: data)) unit) s =
      .next (complete s (.ok (.readResult ((List.range (bc.toNat / 2)).map fun j =>
        beToU16 (data.getD (2 * j) 0) (data.getD (2 * j + 1) 0)))))

/-- R63, R156: a device's answer with any 0 to 127 values is read back in the device's order. -/
def Obligations.DeviceValuesAreReadBack : Prop :=
  ∀ (unit : Byte) (values : List Word) (s : State), values.length ≤ 127 →
    exec (.parseResponse (rs03Bytes unit values) unit) s = .next (complete s (.ok (.readResult values)))

/-- R158, R64: a valid 0x10 response completes with the start address and the quantity the device echoes, at every value of both;
they are compared with nothing (R159). -/
def Obligations.DeviceEchoIsReadBack : Prop :=
  ∀ (unit : Byte) (start qty : Word) (s : State),
    exec (.parseResponse (rs10Bytes unit start qty) unit) s = .next (complete s (.ok (.writeResult start qty)))

/-- R60, R162: a parse that ends with a payload had a frame of at least 5 bytes with a valid CRC from the expected unit. -/
def Obligations.ParserAcceptsOnlyValidFrames : Prop :=
  ∀ (inp : List Byte) (unit : Byte) (s t : State) (p : Payload),
    exec (.parseResponse inp unit) s = .next t → t.result = some (.ok p) →
    5 ≤ inp.length ∧ verifyCrc inp = some true ∧ inp[0]? = some unit

/-! ### The wire rows -/

/-- R61: RQ03 completes with its frame of 8 bytes, in every state and for every field value, and BUILD_READ (R131) builds that
frame. That RQ03 is an instruction entered directly is the model's choice (log entry 6). -/
def Obligations.Rq03IsTheReadRequestFrame : Prop :=
  ∀ (unit : Byte) (start qty : Word) (s : State),
    exec (.rq03 unit start qty) s = .next (complete s (.ok (.frame (rq03Bytes unit start qty)))) ∧
    exec (.buildRead unit start qty) s = .next (complete s (.ok (.frame (rq03Bytes unit start qty)))) ∧
    (rq03Bytes unit start qty).length = 8

/-- R62, R132: RQ10 completes with its frame up to 127 values, and in general as the parameter's bound says. -/
def Obligations.Rq10IsTheWriteRequestFrame : Prop :=
  (∀ (unit : Byte) (start : Word) (values : List Word) (s : State), values.length ≤ 127 →
    exec (.rq10 unit start values) s = .next (complete s (.ok (.frame (rq10Bytes unit start values))))) ∧
  (∀ (unit : Byte) (start : Word) (values : List Word) (s : State),
    exec (.rq10 unit start values) s = exec (.buildWrite unit start values) s)

/-- R152, R158, R160: PARSE_RESPONSE takes the arm of the response row that the function code selects. -/
def Obligations.ParseResponseTakesTheSelectedArm : Prop :=
  ∀ (inp : List Byte) (unit : Byte) (s : State) (i : Instr),
    decode (.parser inp unit) = .ok i → exec (.parseResponse inp unit) s = exec i s

/-- R152: RS03 completes with the values of a valid frame, whatever device and order of registers. -/
def Obligations.Rs03ReturnsTheValues : Prop :=
  ∀ (unit bc : Byte) (data : List Byte) (s : State), data.length = bc.toNat →
    exec (.rs03 (sealed (unit :: 0x03#8 :: bc :: data)) unit) s =
      .next (complete s (.ok (.readResult ((List.range (bc.toNat / 2)).map fun j =>
        beToU16 (data.getD (2 * j) 0) (data.getD (2 * j + 1) 0)))))

/-- R158: RS10 completes with the echoed fields of a valid frame. -/
def Obligations.Rs10ReturnsTheEcho : Prop :=
  ∀ (unit : Byte) (start qty : Word) (s : State),
    exec (.rs10 (rs10Bytes unit start qty) unit) s = .next (complete s (.ok (.writeResult start qty)))

/-- R160: RS_UNSUPPORTED_FUNCTION answers with the code, its own effect. -/
def Obligations.RsUnsupportedReportsTheCode : Prop :=
  ∀ (fc : Byte) (s : State),
    exec (.rsUnsupported fc) s = .next (complete s (.error (.unsupportedFunctionCode fc)))

/-! ### Status, result ports, reset as an action -/

/-- R200: the status code of every response, and that no other is produced. -/
def Obligations.StatusCodesAreThoseOfTheTable : Prop :=
  (∀ p, statusOf (.ok p) = 0x00#8) ∧
  (∀ a e, statusOf (.error (.malformedLength a e)) = 0x01#8) ∧
  (∀ r c, statusOf (.error (.checksumMismatch r c)) = 0x02#8) ∧
  (∀ a e, statusOf (.error (.unitMismatch a e)) = 0x03#8) ∧
  (∀ c, statusOf (.error (.unsupportedFunctionCode c)) = 0x04#8) ∧
  (∀ n l, statusOf (.error (.quantityOutOfRange n l)) = 0x05#8) ∧
  (∀ c, statusOf (.error (.illegalCommand c)) = 0x06#8) ∧
  (∀ r, (statusOf r).toNat < 7)

/-- R22: a response with an error status carries an error record and no payload, one with status OK a payload and no error record; and
which result port holds what: the status always, for each payload its own ports and no other, for an error the record alone. -/
def Obligations.ResponsesCarryAPayloadOrAnErrorRecord : Prop :=
  (∀ r : Response,
    (statusOf r = 0 → portValue r .errorRecord = none ∧ ∃ p, r = .ok p) ∧
    (statusOf r ≠ 0 → (∃ e, r = .error e ∧ portValue r .errorRecord = some (.record e)) ∧
      ∀ port, port ≠ .status → port ≠ .errorRecord → portValue r port = none) ∧
    portValue r .status = some (.byte (statusOf r))) ∧
  ∀ port : ResultPort, port ≠ .status →
    (∀ v, portValue (.ok (.crc v)) port = if port = .crc then some (.word v) else none) ∧
    (∀ v, portValue (.ok (.matched v)) port = if port = .matched then some (.bool v) else none) ∧
    (∀ v, portValue (.ok (.frame v)) port = if port = .frame then some (.bytes v) else none) ∧
    (∀ v, portValue (.ok (.readResult v)) port = if port = .readResult then some (.words v) else none) ∧
    (∀ start qty, portValue (.ok (.writeResult start qty)) port =
      if port = .writeStart then some (.word start)
      else if port = .writeQty then some (.word qty)
      else none) ∧
    (∀ e, portValue (.error e) port = if port = .errorRecord then some (.record e) else none)

/-- R31: a host read of a result port before any command has completed is a fault. -/
def Obligations.ReadBeforeTheFirstResponseFaults : Prop :=
  ∀ (s : State) (port : ResultPort) (rest : List HostAction),
    s.inputs = .readPort port :: rest → s.result = none → step s = .fault (.noResponse port)

/-- R22, R49: a host read of a result port that has a value gives it and changes nothing else; a read of one that the last response
gave no value faults by name (log entry 4). That all hosts read one set of ports is the model's choice (log entry 21). -/
def Obligations.ResultPortReadHasNoSideEffect : Prop :=
  ∀ (s : State) (port : ResultPort) (rest : List HostAction) (r : Response),
    s.inputs = .readPort port :: rest → s.result = some r →
    (∀ v, portValue r port = some v → step s = .next { s with inputs := rest, readback := some v }) ∧
    (portValue r port = none → step s = .fault (.portHasNoValue port))

/-- R240: a reset leaves no command in progress and no response available; the responses the host already has stay the host's (log
entry 9), and that the ports of all hosts are cleared (log entry 21), are the model's choices. -/
def Obligations.ResetActionLeavesNoResponse : Prop :=
  ∀ (s : State) (rest : List HostAction), s.inputs = .reset :: rest →
    ∃ t, step s = .next t ∧ t.work = none ∧ t.result = none ∧ t.inputs = rest ∧ t.delivered = s.delivered
end

