-- ==== Sys2Proof/Laws/State.lean ====
section
/-! SUPPORT. One lemma per field and update of the state: no later proof unfolds a record update. -/

namespace Sys2Proof.Machine

@[simp] theorem live_setWork (s : State) (w : Work) : live (setWork s w) = w := rfl
@[simp] theorem setWork_inputs (s : State) (w : Work) : (setWork s w).inputs = s.inputs := rfl
@[simp] theorem setWork_work (s : State) (w : Work) : (setWork s w).work = some w := rfl
@[simp] theorem setWork_result (s : State) (w : Work) : (setWork s w).result = s.result := rfl
@[simp] theorem setWork_delivered (s : State) (w : Work) : (setWork s w).delivered = s.delivered := rfl
@[simp] theorem setWork_readback (s : State) (w : Work) : (setWork s w).readback = s.readback := rfl
@[simp] theorem setWork_setWork (s : State) (w w' : Work) : setWork (setWork s w) w' = setWork s w' := rfl

@[simp] theorem complete_inputs (s : State) (r : Response) : (complete s r).inputs = s.inputs := rfl
@[simp] theorem complete_work (s : State) (r : Response) : (complete s r).work = none := rfl
@[simp] theorem complete_result (s : State) (r : Response) : (complete s r).result = some r := rfl
@[simp] theorem complete_delivered (s : State) (r : Response) : (complete s r).delivered = s.delivered ++ [r] := rfl
@[simp] theorem complete_readback (s : State) (r : Response) : (complete s r).readback = s.readback := rfl

/-- The response of a command does not keep its transient state (R27). -/
@[simp] theorem complete_setWork (s : State) (w : Work) (r : Response) : complete (setWork s w) r = complete s r := rfl

/-- Nor the transient state it was issued over. -/
theorem complete_with_work (s : State) (w : Option Work) (r : Response) :
    complete { s with work := w } r = complete s r := rfl

@[simp] theorem resetEngine_inputs (s : State) : (resetEngine s).inputs = s.inputs := rfl
@[simp] theorem resetEngine_work (s : State) : (resetEngine s).work = none := rfl
@[simp] theorem resetEngine_result (s : State) : (resetEngine s).result = none := rfl
@[simp] theorem resetEngine_delivered (s : State) : (resetEngine s).delivered = s.delivered := rfl
@[simp] theorem resetEngine_readback (s : State) : (resetEngine s).readback = s.readback := rfl

theorem withFetchWord_inputs (s : State) (nbits w : Nat) :
    (s.withFetchWord nbits w).inputs = .issue (tableDescriptor nbits w) :: s.inputs := rfl

end Sys2Proof.Machine
end

