-- ==== Sys2Proof/Laws/Ops.lean ====
section
/-! SUPPORT. One lemma per shared operation that says everything it does, in terms of `complete` and of the functions of byte
sequences: a proof about an instruction cites these and unfolds no operation. -/

namespace Sys2Proof.Machine

/-! ### The CRC loop on the transient state -/

theorem workBits_acc (n : Nat) (w : Work) : (workBits n w).acc = crcBits n w.acc := by
  induction n generalizing w with
  | zero => rfl
  | succ n ih => exact ih (workBit w)

theorem workBits_out (n : Nat) (w : Work) : (workBits n w).out = w.out := by
  induction n generalizing w with
  | zero => rfl
  | succ n ih => exact ih (workBit w)

theorem workBits_res (n : Nat) (w : Work) : (workBits n w).res = w.res := by
  induction n generalizing w with
  | zero => rfl
  | succ n ih => exact ih (workBit w)

@[simp] theorem workByte_acc (w : Work) (b : Byte) : (workByte w b).acc = crcStep w.acc b := workBits_acc 8 _
@[simp] theorem workByte_out (w : Work) (b : Byte) : (workByte w b).out = w.out := workBits_out 8 _
@[simp] theorem workByte_res (w : Work) (b : Byte) : (workByte w b).res = w.res := workBits_res 8 _

theorem foldl_workByte (bs : List Byte) (w : Work) :
    (bs.foldl workByte w).acc = bs.foldl crcStep w.acc ∧ (bs.foldl workByte w).out = w.out ∧
      (bs.foldl workByte w).res = w.res := by
  induction bs generalizing w with
  | nil => exact ⟨rfl, rfl, rfl⟩
  | cons b bs ih => simpa using ih (workByte w b)

/-- A CRC computation leaves the CRC in the accumulator, whatever it held before (R27, R111). -/
@[simp] theorem workCrc_acc (w : Work) (bs : List Byte) : (workCrc w bs).acc = crc16 bs := (foldl_workByte bs _).1
@[simp] theorem workCrc_out (w : Work) (bs : List Byte) : (workCrc w bs).out = w.out := (foldl_workByte bs _).2.1
@[simp] theorem workCrc_res (w : Work) (bs : List Byte) : (workCrc w bs).res = w.res := (foldl_workByte bs _).2.2

/-! ### The marshalling loops on the transient state -/

theorem foldl_workEncodeWord (vs : List Word) (w : Work) :
    vs.foldl workEncodeWord w =
      { w with out := w.out ++ encodeU16Seq vs, i := w.i + (encodeU16Seq vs).length } := by
  induction vs generalizing w with
  | nil => simp [encodeU16Seq]
  | cons v vs ih =>
    simp [ih, workEncodeWord, encodeU16Seq, u16ToBe]
    omega

/-- The encoding loop appends the bytes of the values to the output sequence (R102). -/
@[simp] theorem workEncode_out (w : Work) (vs : List Word) : (workEncode w vs).out = w.out ++ encodeU16Seq vs := by
  rw [workEncode, foldl_workEncodeWord]

/-- R103, one value at a time: the value of the two bytes at the offset and those after them, none where two bytes are not there. -/
theorem decodeU16Seq_succ (inp : List Byte) (off n : Nat) :
    decodeU16Seq inp off (n + 1) =
      match memRead inp off 2 with
      | [hi, lo] => beToU16 hi lo :: decodeU16Seq inp (off + 2) n
      | _ => [] := by
  have hd : inp.drop (off + 2) = (inp.drop off).drop 2 := by simp
  simp only [decodeU16Seq, memRead, hd]
  match inp.drop off with
  | [] => rfl
  | [_] => rfl
  | hi :: lo :: rest => simp [Nat.mul_add, decodePairs]

theorem decodeU16Seq_stop (inp : List Byte) (off n : Nat) (h : ∀ hi lo, memRead inp off 2 ≠ [hi, lo]) :
    decodeU16Seq inp off n = [] := by
  cases n with
  | zero => rfl
  | succ n =>
    rw [decodeU16Seq_succ]
    rcases hm : memRead inp off 2 with _ | ⟨hi, _ | ⟨lo, _ | ⟨_, _⟩⟩⟩
    · rfl
    · rfl
    · exact absurd hm (h hi lo)
    · rfl

/-- The decoding loop appends the values from the byte index on to the result accumulator. -/
theorem workDecodeWords_res (inp : List Byte) (off n : Nat) (w : Work) :
    (workDecodeWords inp off n w).res = w.res ++ decodeU16Seq inp (off + w.i) n := by
  induction n generalizing w with
  | zero => exact (List.append_nil _).symm
  | succ n ih =>
    rw [workDecodeWords, ih]
    by_cases h : ∃ hi lo, memRead inp (off + w.i) 2 = [hi, lo]
    · obtain ⟨hi, lo, he⟩ := h
      simp [workDecodeWord, decodeU16Seq_succ, he, Nat.add_assoc]
    · have hn : ∀ hi lo, memRead inp (off + w.i) 2 ≠ [hi, lo] := fun hi lo he => h ⟨hi, lo, he⟩
      have hw : workDecodeWord inp off w = w := by
        unfold workDecodeWord
        split
        · next hi lo he => exact absurd he (hn hi lo)
        · rfl
      rw [hw, decodeU16Seq_stop _ _ _ hn, decodeU16Seq_stop _ _ _ hn]

/-- The decoding loop leaves the values decoded in the result accumulator, whatever it held before (R29, R103). -/
@[simp] theorem workDecode_res (w : Work) (inp : List Byte) (off n : Nat) :
    (workDecode w inp off n).res = decodeU16Seq inp off n := by
  simp [workDecode, workDecodeWords_res]

/-! ### The operations on the state -/

@[simp] theorem live_begin (s : State) : live (begin s) = startWork := rfl
@[simp] theorem live_runCrc (s : State) (bs : List Byte) : live (runCrc s bs) = workCrc (live s) bs := rfl
@[simp] theorem live_emit (s : State) (bs : List Byte) : live (emit s bs) = workEmit (live s) bs := rfl
@[simp] theorem live_emitValues (s : State) (vs : List Word) : live (emitValues s vs) = workEncode (live s) vs := rfl
@[simp] theorem live_decodeValues (s : State) (inp : List Byte) (off n : Nat) :
    live (decodeValues s inp off n) = workDecode (live s) inp off n := rfl

@[simp] theorem complete_begin (s : State) (r : Response) : complete (begin s) r = complete s r := rfl
@[simp] theorem complete_runCrc (s : State) (bs : List Byte) (r : Response) : complete (runCrc s bs) r = complete s r := rfl
@[simp] theorem complete_emit (s : State) (bs : List Byte) (r : Response) : complete (emit s bs) r = complete s r := rfl
@[simp] theorem complete_emitValues (s : State) (vs : List Word) (r : Response) :
    complete (emitValues s vs) r = complete s r := rfl
@[simp] theorem complete_decodeValues (s : State) (inp : List Byte) (off n : Nat) (r : Response) :
    complete (decodeValues s inp off n) r = complete s r := rfl

/-- R130: the frame returned is the output sequence and its CRC. -/
theorem sealFrame_eq (s : State) : sealFrame s = complete s (.ok (.frame (sealed (live s).out))) := by
  simp [sealFrame, returnFrame, sealed, workEmit]

theorem live_emit_begin_out (s : State) (bs : List Byte) : (live (emit (begin s) bs)).out = bs := by
  simp [workEmit, startWork]

/-- R132: the limit exceeded is the parameter's bound, for every value of the parameter. -/
theorem exceededLimit_eq_some (m : WriteMax) (n l : Nat) :
    exceededLimit m n = some l ↔ m.limit = some l ∧ l < n := by
  unfold exceededLimit WriteMax.limit
  split
  · cases m <;> simp <;> omega
  · cases m <;> simp <;> omega

theorem exceededLimit_small (m : WriteMax) {n : Nat} (h : n ≤ 127) : exceededLimit m n = none := by
  simp [exceededLimit, h]

/-- The operation of a write request, in terms of the parameter's bound. -/
theorem buildWriteWith_eq (m : WriteMax) (s : State) (unit : Byte) (start : Word) (values : List Word) :
    buildWriteWith m (begin s) unit start values = complete s
      (match exceededLimit m values.length with
        | some limit => .error (.quantityOutOfRange values.length limit)
        | none => .ok (.frame (sealed ([unit, 0x10#8] ++ u16ToBe start ++ u16ToBe (quantityField values.length) ++
            [byteCountField values.length] ++ encodeU16Seq values)))) := by
  unfold buildWriteWith
  cases exceededLimit m values.length with
  | some limit => rfl
  | none =>
    refine (sealFrame_eq _).trans ?_
    rw [live_emitValues, workEncode_out, live_emit_begin_out]
    rfl

theorem receivedCrc_append (bs : List Byte) (lo hi : Byte) : receivedCrc (bs ++ [lo, hi]) = some (leToU16 lo hi) := by
  simp [receivedCrc, memRead]

theorem body_append (bs : List Byte) (lo hi : Byte) : body (bs ++ [lo, hi]) = bs := by
  simp [body, memRead]

/-- A sequence of at least two bytes is a body and two bytes. -/
theorem exists_body_append (inp : List Byte) (h : 2 ≤ inp.length) : ∃ bs lo hi, inp = bs ++ [lo, hi] := by
  have hl : (inp.drop (inp.length - 2)).length = 2 := by simp; omega
  obtain ⟨lo, hi, he⟩ := List.length_eq_two.1 hl
  exact ⟨inp.take (inp.length - 2), lo, hi, by rw [← he, List.take_append_drop]⟩

/-- R120: a frame has no checksum exactly where it is shorter than two bytes. -/
theorem receivedCrc_eq_none (inp : List Byte) : receivedCrc inp = none ↔ inp.length < 2 := by
  constructor
  · intro h
    by_contra hn
    obtain ⟨bs, lo, hi, rfl⟩ := exists_body_append inp (by omega)
    simp [receivedCrc_append] at h
  · intro h
    match inp, h with
    | [], _ => rfl
    | [_], _ => rfl

/-- R154, R155: the checks behind a length check, on an input that is a body and its CRC field. -/
theorem checkThen_append (s : State) (b₀ : Byte) (bs : List Byte) (lo hi unit : Byte) (decoded : State → State) :
    checkThen s (b₀ :: bs ++ [lo, hi]) unit decoded =
      if leToU16 lo hi ≠ crc16 (b₀ :: bs) then
        complete s (.error (.checksumMismatch (leToU16 lo hi) (crc16 (b₀ :: bs))))
      else if b₀ ≠ unit then complete s (.error (.unitMismatch b₀ unit))
      else decoded (runCrc s (b₀ :: bs)) := by
  have hr := receivedCrc_append (b₀ :: bs) lo hi
  have hb := body_append (b₀ :: bs) lo hi
  simp only [List.cons_append] at hr hb ⊢
  simp [checkThen, hr, hb, raiseError]

/-- R153: a 0x03 frame without a byte count. -/
theorem readArm_short (s : State) (inp : List Byte) (unit : Byte) (h : inp.length < 3) :
    readArm s inp unit = complete s (.error (.malformedLength inp.length none)) := by
  match inp, h with
  | [], _ => rfl
  | [_], _ => rfl
  | [_, _], _ => rfl

/-- R153: a 0x03 frame whose length is not the one its byte count implies. -/
theorem readArm_length (s : State) (b₀ b₁ bc : Byte) (rest : List Byte) (unit : Byte)
    (h : rest.length ≠ bc.toNat + 2) :
    readArm s (b₀ :: b₁ :: bc :: rest) unit =
      complete s (.error (.malformedLength (rest.length + 3) (some (bc.toNat + 5)))) := by
  have h' : (b₀ :: b₁ :: bc :: rest).length ≠ bc.toNat + 5 := by simp; omega
  simp only [readArm, if_pos h']
  rfl

/-- R154 to R157: a 0x03 frame of the right length. -/
theorem readArm_append (s : State) (b₀ b₁ bc : Byte) (data : List Byte) (lo hi unit : Byte)
    (h : data.length = bc.toNat) :
    readArm s (b₀ :: b₁ :: bc :: data ++ [lo, hi]) unit =
      if leToU16 lo hi ≠ crc16 (b₀ :: b₁ :: bc :: data) then
        complete s (.error (.checksumMismatch (leToU16 lo hi) (crc16 (b₀ :: b₁ :: bc :: data))))
      else if b₀ ≠ unit then complete s (.error (.unitMismatch b₀ unit))
      else complete s (.ok (.readResult
        (decodeU16Seq (b₀ :: b₁ :: bc :: data ++ [lo, hi]) 3 (bc.toNat / 2)))) := by
  have h' : ¬ (b₀ :: b₁ :: bc :: data ++ [lo, hi]).length ≠ bc.toNat + 5 := by simp [h]
  have hc := checkThen_append s b₀ (b₁ :: bc :: data) lo hi unit fun s₁ =>
    returnRead (decodeValues s₁ (b₀ :: b₁ :: bc :: data ++ [lo, hi]) 3 (bc.toNat / 2))
  simp only [List.cons_append] at h' hc ⊢
  simp only [readArm, if_neg h']
  rw [hc]
  simp [returnRead]

/-- R158: a 0x10 frame whose length is not 8. -/
theorem writeArm_length (s : State) (inp : List Byte) (unit : Byte) (h : inp.length ≠ 8) :
    writeArm s inp unit = complete s (.error (.malformedLength inp.length (some 8))) := by
  unfold writeArm
  split
  · simp at h
  · rfl

/-- R158: a 0x10 frame of 8 bytes. -/
theorem writeArm_append (s : State) (b₀ b₁ sh sl qh ql lo hi unit : Byte) :
    writeArm s [b₀, b₁, sh, sl, qh, ql, lo, hi] unit =
      if leToU16 lo hi ≠ crc16 [b₀, b₁, sh, sl, qh, ql] then
        complete s (.error (.checksumMismatch (leToU16 lo hi) (crc16 [b₀, b₁, sh, sl, qh, ql])))
      else if b₀ ≠ unit then complete s (.error (.unitMismatch b₀ unit))
      else complete s (.ok (.writeResult (beToU16 sh sl) (beToU16 qh ql))) :=
  checkThen_append s b₀ [b₁, sh, sl, qh, ql] lo hi unit fun s₁ => returnWrite s₁ (beToU16 sh sl) (beToU16 qh ql)

theorem leToU16_crcToLe (c : Word) : leToU16 (loByte c) (hiByte c) = c := by
  unfold leToU16 loByte hiByte
  ext i hi
  simp [BitVec.getElem_or, BitVec.getElem_setWidth, BitVec.getElem_shiftLeft, BitVec.getLsbD_extractLsb']
  interval_cases i <;> simp [BitVec.getLsbD_eq_getElem]

/-- What is no instruction: a response or a refusal. -/
theorem answerReject_cases (r : Reject) (s : State) :
    (∃ e, answerReject r s = .next (complete s (.error e))) ∨
      (∃ fc, r = .noRequestFormat fc ∧ answerReject r s = .refused (.noRequestFormat fc)) := by
  cases r with
  | reservedCommand code => exact .inl ⟨_, rfl⟩
  | noFunctionCode len => exact .inl ⟨_, rfl⟩
  | noRequestFormat fc => exact .inr ⟨fc, rfl, rfl⟩

/-- A host read that does not fault changes only what the host has read. -/
theorem hostRead_next {p : ResultPort} {s t : State} (h : hostRead p s = .next t) :
    ∃ r v, s.result = some r ∧ portValue r p = some v ∧ t = { s with readback := some v } := by
  unfold hostRead at h
  split at h
  · simp at h
  · next r hr =>
    split at h
    · next v hv => exact ⟨r, v, hr, hv, by simpa using h.symm⟩
    · simp at h

end Sys2Proof.Machine
end

