-- ==== Sys2Proof/Laws/PerInstr.lean ====
section
/-! SUPPORT. The family Encoding: the fixed bits of an instruction's row in spec/opcode_table.json stand in its encoding. -/

namespace Sys2Proof.Laws.Encoding

/-- Whether the 8-bit code of an encoding is one the instruction's row matches (spec/opcode_table.json, spec/30_encoding.md R67, R70). -/
def rowMatches : Instr → Byte → Bool
  | .crc16 _, c => c == 0b00000001#8
  | .verifyCrc _, c => c == 0b00000010#8
  | .buildRead _ _ _, c => c == 0b00000011#8
  | .buildWrite _ _ _, c => c == 0b00000100#8
  | .parseResponse _ _, c => c == 0b00000101#8
  | .rq03 _ _ _, c => c == 0b00000011#8
  | .rq10 _ _ _, c => c == 0b00010000#8
  | .rs03 _ _, c => c == 0b00000011#8
  | .rs10 _ _, c => c == 0b00010000#8
  | .rsUnsupported _, c => c != 0b00000011#8 && c != 0b00010000#8

def Statement (i : Instr) : Prop :=
  i.wellFormed = true → ∃ c, (encode i).code = some c ∧ rowMatches i c = true

theorem crc16 (inp : List Byte) : Statement (.crc16 inp) := fun _ => ⟨_, rfl, rfl⟩
theorem verifyCrc (inp : List Byte) : Statement (.verifyCrc inp) := fun _ => ⟨_, rfl, rfl⟩
theorem buildRead (u : Byte) (s q : Word) : Statement (.buildRead u s q) := fun _ => ⟨_, rfl, rfl⟩
theorem buildWrite (u : Byte) (s : Word) (vs : List Word) : Statement (.buildWrite u s vs) := fun _ => ⟨_, rfl, rfl⟩
theorem parseResponse (inp : List Byte) (u : Byte) : Statement (.parseResponse inp u) := fun _ => ⟨_, rfl, rfl⟩
theorem rq03 (u : Byte) (s q : Word) : Statement (.rq03 u s q) := fun _ => ⟨_, rfl, rfl⟩
theorem rq10 (u : Byte) (s : Word) (vs : List Word) : Statement (.rq10 u s vs) := fun _ => ⟨_, rfl, rfl⟩
theorem rs03 (inp : List Byte) (u : Byte) : Statement (.rs03 inp u) := fun h => ⟨_, eq_of_beq h, rfl⟩
theorem rs10 (inp : List Byte) (u : Byte) : Statement (.rs10 inp u) := fun h => ⟨_, eq_of_beq h, rfl⟩
theorem rsUnsupported (fc : Byte) : Statement (.rsUnsupported fc) := fun h => ⟨fc, rfl, h⟩

end Sys2Proof.Laws.Encoding
end

