-- ==== Sys2Proof/Tests/Slice0.lean ====
section
/-! SUPPORT. Tests whose expected results stand in spec/95_test_vectors.md (named in each docstring) or follow by hand from the rule cited,
the smoke test of WellFormed, and a witness for the hypotheses of each statement that has any. -/

namespace Sys2Proof.Tests

open Sys2Proof.Machine

/-- The response an outcome leaves in the result ports. -/
def responseOf : Host.Outcome State Fault Refusal → Option Response
  | .next t => t.result
  | .fault _ => none
  | .refused _ => none

/-- What the engine answers to an instruction after reset. -/
def answer (i : Instr) : Option Response := responseOf (exec i State.reset)

/-- The state after reset with one action of the host to take. -/
def withAction (a : HostAction) : State := { State.reset with inputs := [a] }

/-- What the engine answers to a descriptor after reset. -/
def answerTo (d : Descriptor) : Option Response := responseOf (step (withAction (.issue d)))

/-! ### WellFormed refuses -/

theorem test_illFormed_rs03 : (Instr.rs03 [0x01, 0x10, 0x00] 0x01).wellFormed = false := by decide
theorem test_illFormed_rs10 : (Instr.rs10 [0x01] 0x01).wellFormed = false := by decide
theorem test_illFormed_rsUnsupported_read : (Instr.rsUnsupported 0x03).wellFormed = false := by decide
theorem test_illFormed_rsUnsupported_write : (Instr.rsUnsupported 0x10).wellFormed = false := by decide

/-! ### Decoding: words written out from the `encoding` column of spec/opcode_table.json -/

theorem test_decode_crc16 : decodeTableWord 8 0b00000001 = some (.crc16 []) := by decide
theorem test_decode_verifyCrc : decodeTableWord 8 0b00000010 = some (.verifyCrc []) := by decide
theorem test_decode_buildRead : decodeTableWord 8 0b00000011 = some (.buildRead 0 0 0) := by decide
theorem test_decode_buildWrite : decodeTableWord 8 0b00000100 = some (.buildWrite 0 0 []) := by decide
theorem test_decode_parseResponse : decodeTableWord 8 0b00000101 = some (.parseResponse [] 0) := by decide
theorem test_decode_rq03 :
    decode (.framer 0b00000011#8 { Ports.zero with unit := 1, start := 0x10, qty := 2 }) = .ok (.rq03 1 0x10 2) := by decide
theorem test_decode_rq10 : decodeTableWord 8 0b00010000 = some (.rq10 0 0 []) := by decide
theorem test_decode_rs03 : decode (.parser [0x01, 0b00000011#8, 0x00] 1) = .ok (.rs03 [0x01, 0x03, 0x00] 1) := by decide
theorem test_decode_rs10 : decodeTableWord 16 0b00010000 = some (.rs10 [0, 0x10, 0, 0, 0, 0, 0, 0] 0) := by decide
theorem test_decode_rsUnsupported : decodeTableWord 8 0b00000000 = some (.rsUnsupported 0) := by decide

/-- R71: the codes on both sides of the five. -/
theorem test_decode_reserved :
    decode (.command 0x00 Ports.zero) = .error (.reservedCommand 0x00) ∧
      decode (.command 0x06 Ports.zero) = .error (.reservedCommand 0x06) ∧
      decode (.command 0xFF Ports.zero) = .error (.reservedCommand 0xFF) := by decide

/-- R71, R200: IllegalCommand, status 0x06. -/
theorem test_step_illegalCommand : answerTo (.command 0x06 Ports.zero) = some (.error (.illegalCommand 0x06)) := by
  decide +kernel

/-- The words of the table's rows run as the first instruction after reset. -/
theorem test_step_tableWord :
    ∀ w ∈ [0x00, 0x01, 0x02, 0x03, 0x04, 0x05, 0x10],
      (responseOf (step (State.reset.withFetchWord 8 w))).isSome = true ∧
        (responseOf (step (State.reset.withFetchWord 16 w))).isSome = true := by
  decide +kernel

/-! ### The CRC -/

/-- The bit-level trace of `crc_step(0xFFFF, 0x01)`, spec/95_test_vectors.md 2.2. -/
theorem test_crcTrace_table :
    crcTrace 0xFFFF [0x01] = [0x7FFF, 0x9FFE, 0x4FFF, 0x87FE, 0x43FF, 0x81FE, 0x40FF, 0x807E] := by decide +kernel

/-- E3. -/
theorem test_crc16_E3 : answer (.crc16 [0x12, 0x34, 0x56, 0x78]) = some (.ok (.crc 0x107B)) := by decide +kernel

/-- V-C5. -/
theorem test_crc16_VC5 :
    answer (.crc16 [0x31, 0x32, 0x33, 0x34, 0x35, 0x36, 0x37, 0x38, 0x39]) = some (.ok (.crc 0x4B37)) := by decide +kernel

/-! ### The marshaller: V-M10 -/

theorem test_decodeU16Seq_VM10 :
    decodeU16Seq [0x11, 0x03, 0x06, 0xAE, 0x41, 0x56, 0x52, 0x43, 0x40, 0x49, 0xAD] 3 3 = [44609, 22098, 17216] := by
  decide +kernel

/-! ### VERIFY_CRC: V-V3, V-V7 -/

theorem test_verifyCrc_VV3 : answer (.verifyCrc [0xFF, 0xFF]) = some (.ok (.matched true)) := by decide +kernel

theorem test_verifyCrc_VV7 :
    answer (.verifyCrc [0x01, 0x03, 0x00, 0x10, 0x00, 0x02, 0xCE, 0xC5]) = some (.ok (.matched false)) := by decide +kernel

/-! ### The builders: E5, V-B4, E6, V-B9, V-B10, V-B11; the rows RQ03 (V-B1) and RQ10 (V-B6) -/

theorem test_buildRead_E5 :
    answer (.buildRead 1 0x0010 0x0002) = some (.ok (.frame [0x01, 0x03, 0x00, 0x10, 0x00, 0x02, 0xC5, 0xCE])) := by
  decide +kernel

theorem test_buildRead_VB4 :
    answer (.buildRead 0xF7 0x1234 0x007D) = some (.ok (.frame [0xF7, 0x03, 0x12, 0x34, 0x00, 0x7D, 0xD5, 0xCB])) := by
  decide +kernel

theorem test_buildWrite_E6 :
    answer (.buildWrite 1 0x0010 [0x1234, 0xABCD]) = some (.ok (.frame
      [0x01, 0x10, 0x00, 0x10, 0x00, 0x02, 0x04, 0x12, 0x34, 0xAB, 0xCD, 0x08, 0xB0])) := by decide +kernel

/-- The first bytes of the frame a response carries. -/
def frameStart (n : Nat) : Option Response → List Byte
  | some (.ok (.frame f)) => f.take n
  | _ => []

/-- V-B9: the byte count has wrapped to zero. -/
theorem test_buildWriteWith_VB9 :
    frameStart 8 (buildWriteWith .unbounded (begin State.reset) 1 0 (List.replicate 128 0)).result =
      [0x01, 0x10, 0x00, 0x00, 0x00, 0x80, 0x00, 0x00] := by decide +kernel

theorem test_buildWriteWith_VB10 :
    (buildWriteWith .max127 (begin State.reset) 1 0 (List.replicate 128 0)).result =
      some (.error (.quantityOutOfRange 128 127)) := by decide +kernel

theorem test_rq03_VB1 :
    answer (.rq03 0 0 0) = some (.ok (.frame [0x00, 0x03, 0x00, 0x00, 0x00, 0x00, 0x44, 0x1B])) := by decide +kernel

theorem test_rq10_VB6 :
    answer (.rq10 0x11 0x0001 [0x000A]) = some (.ok (.frame
      [0x11, 0x10, 0x00, 0x01, 0x00, 0x01, 0x02, 0x00, 0x0A, 0xEA, 0x46])) := by decide +kernel

/-! ### The parser: V-P7, V-P12; the rows RS03 (V-P10, V-P20), RS10 (V-P14, V-P19), RS_UNSUPPORTED_FUNCTION (V-P13) -/

theorem test_parseResponse_VP7 :
    answer (.parseResponse [0x01, 0x03, 0x03, 0x12, 0x34, 0x56, 0x73, 0x75] 1) = some (.ok (.readResult [0x1234])) := by
  decide +kernel

theorem test_parseResponse_VP12 :
    answer (.parseResponse [0x02, 0x03, 0x04, 0x00, 0x0A, 0x00, 0x14, 0x00, 0x00, 0x00] 1) =
      some (.error (.malformedLength 10 (some 9))) := by decide +kernel

theorem test_rs03_VP10 :
    answer (.rs03 [0x11, 0x03, 0x06, 0xAE, 0x41, 0x56, 0x52, 0x43, 0x40, 0x49, 0xAD] 0x11) =
      some (.ok (.readResult [44609, 22098, 17216])) := by decide +kernel

theorem test_rs03_VP20 :
    answer (.rs03 [0x01, 0x03, 0x04, 0x00, 0x0A, 0x00, 0x14, 0xDA, 0x3E] 0) =
      some (.error (.unitMismatch 1 0)) := by decide +kernel

theorem test_rs10_VP14 :
    answer (.rs10 [0x01, 0x10, 0x00, 0x10, 0x00, 0x02, 0x40, 0x0D] 1) = some (.ok (.writeResult 0x0010 2)) := by
  decide +kernel

theorem test_rs10_VP18 :
    answer (.rs10 [0x01, 0x10, 0x00, 0x10, 0x00, 0x02, 0x0D, 0x40] 1) =
      some (.error (.checksumMismatch 0x400D 0x0D40)) := by decide +kernel

theorem test_rsUnsupported_VP13 :
    answerTo (.parser [0x01, 0x83, 0x02, 0xC0, 0xF1] 1) = some (.error (.unsupportedFunctionCode 0x83)) := by
  decide +kernel

/-! ### Result ports read through a step: R22's ports of V-P14's and of E3's response -/

/-- What the host reads from a port after a response. -/
def portRead (r : Response) (p : ResultPort) : Option PortValue :=
  match step { withAction (.readPort p) with result := some r } with
  | .next t => t.readback
  | .fault _ => none
  | .refused _ => none

theorem test_portRead_VP14 :
    portRead (.ok (.writeResult 0x0010 2)) .writeStart = some (.word 0x0010) ∧
      portRead (.ok (.writeResult 0x0010 2)) .writeQty = some (.word 2) ∧
      portRead (.ok (.writeResult 0x0010 2)) .readResult = none := by decide

theorem test_portRead_E3 :
    portRead (.ok (.crc 0x107B)) .crc = some (.word 0x107B) ∧ portRead (.ok (.crc 0x107B)) .status = some (.byte 0x00) := by
  decide

/-! ### The byte index of the loops: R24 and R30, from an index left at 9 -/

theorem test_byteIndex_loops :
    (workEncode { startWork with i := 9 } [0x1234, 0xABCD]).i = 4 ∧
      (workDecode { startWork with i := 9 } [0x01, 0x03, 0x04, 0x00, 0x0A, 0x00, 0x14, 0xDA, 0x3E] 3 2).i = 4 ∧
      (workCrc { startWork with i := 9 } [0x01, 0x02, 0x03]).i = 3 := by decide +kernel

/-! ### The notation of R72: E5's line -/

theorem test_readNumber : readNumber ['0', 'x', '1', 'F'] = some 31 ∧ readNumber ['1', '2', '7'] = some 127 := by decide

theorem test_assemble_E5 :
    assemble [.mnemonic .buildRead, .number 1, .comma, .number 0x0010, .comma, .number 0x0002] =
      some (.command 0x03 { Ports.zero with unit := 1, start := 0x0010, qty := 2 }) := by decide +kernel

/-! ### Witnesses: a concrete input that meets all the hypotheses of a statement

Each is named after its statement. -/

/-- The state after reset in which the host issues BUILD_READ 1, 0x0010, 0x0002. -/
def issueBuildRead : State :=
  withAction (.issue (.command 0x03 { Ports.zero with unit := 1, start := 0x0010, qty := 2 }))

theorem witness_ResetLeavesTheEngineIdle :
    State.reset.inputs = [] ∧ decode (.command 0x01 { Ports.zero with inp := [0xFF] }) = .ok (.crc16 [0xFF]) := by decide

theorem witness_EveryStepKeepsTheInvariant :
    Inv issueBuildRead ∧ ∃ t, step issueBuildRead = .next t :=
  ⟨⟨rfl, fun _ h => by simp [issueBuildRead, withAction, State.reset] at h,
    fun _ h => by simp [issueBuildRead, withAction, State.reset] at h⟩, _, rfl⟩

theorem witness_StepRunsTheDecodedInstruction :
    ∃ d, issueBuildRead.inputs = [.issue d] ∧ decode d = .ok (.buildRead 1 0x0010 2) := ⟨_, rfl, by decide⟩

theorem witness_EveryIssuedCommandIsAnswered :
    ∃ cmd ports, issueBuildRead.inputs = [.issue (.command cmd ports)] := ⟨_, _, rfl⟩

/-- The lowest reserved code, and both ends of the range 0x06 to 0xFF. -/
theorem witness_ReservedCommandCodesAreIllegal :
    (withAction (.issue (.command 0x00 Ports.zero))).inputs = [.issue (.command 0x00 Ports.zero)] ∧
      (withAction (.issue (.command 0x06 Ports.zero))).inputs = [.issue (.command 0x06 Ports.zero)] ∧
      (0x00 : Byte).toNat = 0 ∧ 6 ≤ (0x06 : Byte).toNat ∧ 6 ≤ (0xFF : Byte).toNat := by decide

theorem witness_CommandsCompleteInIssueOrder :
    issueBuildRead.inputs = [((0x03 : Byte), ({ Ports.zero with unit := 1, start := 0x0010, qty := 2 } : Ports))].map
      (fun c => .issue (.command c.1 c.2)) := by decide

theorem witness_AnswersAreThoseOfTheInstruction :
    ∃ t, exec (.verifyCrc []) State.reset = .next t ∧ t.result = some (.error (.malformedLength 0 none)) :=
  ⟨_, rfl, by decide +kernel⟩

theorem witness_DecodedInstructionsAreWellFormed :
    decode (.parser [0x01, 0x10] 1) = .ok (.rs10 [0x01, 0x10] 1) := by decide

theorem witness_DecodeUndoesEncode : (Instr.rs03 [0x01, 0x03, 0x00, 0x20, 0xF0] 1).wellFormed = true := by decide

theorem witness_RequestFramesReadBackWhole : ([0xFFFF] : List Word).length ≤ 127 ∧
    (List.replicate 127 (0 : Word)).length ≤ 127 := ⟨by decide, List.length_replicate.le⟩

theorem witness_NotationStandsForTheCommand :
    lineOf (.crc16 [0xFF]) = some [.mnemonic .crc16, .openBracket, .number 255, .closeBracket] := by decide

theorem witness_EncodedSequenceKeepsOrder : ([0x1234, 0xABCD] : List Word)[1]? = some 0xABCD := by decide

theorem witness_DecodedSequenceReadsItsOffsets :
    3 + 2 * 2 ≤ ([1, 3, 4, 0x00, 0x0A, 0x00, 0x14, 0xDA, 0x3E] : List Byte).length ∧ 1 < 2 ∧
      ([1, 3, 4, 0x00, 0x0A, 0x00, 0x14, 0xDA, 0x3E] : List Byte)[3 + 2 * 1]? = some 0x00 ∧
      ([1, 3, 4, 0x00, 0x0A, 0x00, 0x14, 0xDA, 0x3E] : List Byte)[3 + 2 * 1 + 1]? = some 0x14 := by decide

/-- The first and the last bit of E5's frame. -/
theorem witness_SingleBitFlipIsDetected :
    verifyCrc [0x01, 0x03, 0x00, 0x10, 0x00, 0x02, 0xC5, 0xCE] = some true ∧
      0 < 8 * ([0x01, 0x03, 0x00, 0x10, 0x00, 0x02, 0xC5, 0xCE] : List Byte).length ∧
      63 < 8 * ([0x01, 0x03, 0x00, 0x10, 0x00, 0x02, 0xC5, 0xCE] : List Byte).length := by decide +kernel

/-- One below and at the boundary of two bytes. -/
theorem witness_VerifyReturnsTheComparison :
    ([0x00] : List Byte).length < 2 ∧ 2 ≤ ([0xFF, 0xFF] : List Byte).length := by decide

theorem witness_CountAboveTheBoundIsOutOfRange :
    WriteMax.max127.limit = some 127 ∧ 127 < (List.replicate 128 (0 : Word)).length :=
  ⟨rfl, by rw [List.length_replicate]; decide⟩

theorem witness_CountAboveTheBound_max65535 :
    WriteMax.max65535.limit = some 65535 ∧ 65535 < (List.replicate 65536 (0 : Word)).length :=
  ⟨rfl, by rw [List.length_replicate]; decide⟩

theorem witness_SmallWritesAlwaysComplete : (List.replicate 127 (0 : Word)).length ≤ 127 := List.length_replicate.le

/-- A count whose byte count wraps, which UNBOUNDED accepts, and the largest count 127 accepts. -/
theorem witness_WriteRequestFieldsStandAtTheirOffsets :
    (∀ limit, WriteMax.unbounded.limit = some limit → (List.replicate 128 (0 : Word)).length ≤ limit) ∧
      (∀ limit, WriteMax.max127.limit = some limit → (List.replicate 127 (0 : Word)).length ≤ limit) ∧
      (List.replicate 128 (0 : Word))[127]? = some 0 := by
  refine ⟨by simp [WriteMax.limit], ?_, by simp⟩
  intro limit h
  simp [WriteMax.limit] at h
  simp [← h]

theorem witness_BuiltFramesObeyTheBuilderLaws_read :
    ∃ t f, exec (.buildRead 1 0x0010 2) State.reset = .next t ∧ t.result = some (.ok (.frame f)) := ⟨_, _, rfl, rfl⟩

theorem witness_BuiltFramesObeyTheBuilderLaws_write :
    ∃ t f, exec (.buildWrite 1 0 []) State.reset = .next t ∧ t.result = some (.ok (.frame f)) := ⟨_, _, rfl, rfl⟩

theorem witness_OnlyTwoFunctionCodesAreBuilt :
    ∃ t f, exec (.rq10 1 0 [0x000A]) State.reset = .next t ∧ t.result = some (.ok (.frame f)) := ⟨_, _, rfl, rfl⟩

theorem witness_ParseRejectsInputsWithoutAFunctionCode : ([0x01] : List Byte).length < 2 := by decide

theorem witness_OtherFunctionCodesAreUnsupported :
    (0x02 : Byte) ≠ 0x03 ∧ (0x11 : Byte) ≠ 0x03 ∧ (0x02 : Byte) ≠ 0x10 ∧ (0x11 : Byte) ≠ 0x10 := by decide

/-- V-P8 and V-P9, both sides of the exact length, and V-P16 and V-P17. -/
theorem witness_ResponseLengthIsCheckedFirst :
    ([0x00, 0x00] : List Byte).length + 3 ≠ (0xFF : Byte).toNat + 5 ∧
      ([0x00, 0x0A, 0x00, 0x14, 0xDA, 0x3E, 0x00] : List Byte).length + 3 ≠ (0x04 : Byte).toNat + 5 ∧
      ([0x00, 0x10, 0x00, 0x02, 0x40] : List Byte).length + 2 ≠ 8 ∧
      ([0x00, 0x10, 0x00, 0x02, 0x40, 0x0D, 0x00] : List Byte).length + 2 ≠ 8 := by decide

/-- E11 and V-P18. -/
theorem witness_WrongChecksumIsReported :
    ([0x00, 0x0A, 0x00, 0x14] : List Byte).length = (0x04 : Byte).toNat ∧
      leToU16 0x00 0x00 ≠ crc16 ((0x01 : Byte) :: 0x03#8 :: 0x04 :: [0x00, 0x0A, 0x00, 0x14]) ∧
      leToU16 0x0D 0x40 ≠ crc16 [0x01, 0x10#8, 0x00, 0x10, 0x00, 0x02] := by decide +kernel

/-- E12 and V-P19; unit 0 is not special (V-P20); V-P11, whose checksum and unit are both wrong, and V-P18's bytes from unit 2. -/
theorem witness_WrongUnitIsReported :
    ([0x00, 0x0A, 0x00, 0x14] : List Byte).length = (0x04 : Byte).toNat ∧ (0x02 : Byte) ≠ 0x01 ∧ (0x01 : Byte) ≠ 0x00 ∧
      leToU16 0xDA 0x3E ≠ crc16 ((0x02 : Byte) :: 0x03#8 :: 0x04 :: [0x00, 0x0A, 0x00, 0x14]) ∧
      leToU16 0x0D 0x40 ≠ crc16 [0x02, 0x10#8, 0x00, 0x10, 0x00, 0x02] := by decide +kernel

/-- Byte counts 0, odd and 255. -/
theorem witness_ValidReadResponseIsDecoded :
    ([] : List Byte).length = (0x00 : Byte).toNat ∧ ([0x12, 0x34, 0x56] : List Byte).length = (0x03 : Byte).toNat ∧
      (List.replicate 255 (0 : Byte)).length = (0xFF : Byte).toNat :=
  ⟨by decide, by decide, List.length_replicate⟩

theorem witness_DeviceValuesAreReadBack : (List.replicate 127 (0xFFFF : Word)).length ≤ 127 := List.length_replicate.le

theorem witness_ParserAcceptsOnlyValidFrames :
    ∃ t, exec (.parseResponse [0x01, 0x03, 0x00, 0x20, 0xF0] 1) State.reset = .next t ∧
      t.result = some (.ok (.readResult [])) := ⟨_, rfl, by decide +kernel⟩

theorem witness_Rq10IsTheWriteRequestFrame : (List.replicate 127 (1 : Word)).length ≤ 127 := List.length_replicate.le

theorem witness_ParseResponseTakesTheSelectedArm :
    decode (.parser [0x01, 0x99] 1) = .ok (.rsUnsupported 0x99) ∧
      decode (.parser [0x01, 0x03] 1) = .ok (.rs03 [0x01, 0x03] 1) ∧
      decode (.parser [0x01, 0x10] 1) = .ok (.rs10 [0x01, 0x10] 1) := by decide

theorem witness_Rs03ReturnsTheValues : ([0x01, 0x2C] : List Byte).length = (0x02 : Byte).toNat := by decide

/-- A response with each status: OK, and an error. -/
theorem witness_ResponsesCarryAPayloadOrAnErrorRecord :
    statusOf (.ok (.crc 0)) = 0 ∧ statusOf (.error (.unitMismatch 2 1)) ≠ 0 ∧
      ResultPort.crc ≠ .status ∧ ResultPort.crc ≠ .errorRecord := by decide

theorem witness_ReadBeforeTheFirstResponseFaults :
    (withAction (.readPort .crc)).inputs = [.readPort .crc] ∧ (withAction (.readPort .crc)).result = none := by decide

/-- A port that has a value, and one that has none. -/
theorem witness_ResultPortReadHasNoSideEffect :
    ∃ s : State, s.inputs = [.readPort .crc] ∧ s.result = some (.ok (.crc 0x107B)) ∧
      portValue (.ok (.crc 0x107B)) .crc = some (.word 0x107B) ∧
      ∃ s' : State, s'.inputs = [.readPort .frame] ∧ s'.result = some (.ok (.crc 0x107B)) ∧
        portValue (.ok (.crc 0x107B)) .frame = none :=
  ⟨{ withAction (.readPort .crc) with result := some (.ok (.crc 0x107B)) }, rfl, rfl, rfl,
    { withAction (.readPort .frame) with result := some (.ok (.crc 0x107B)) }, rfl, rfl, rfl⟩

theorem witness_MarshallingLoopsRunTheByteIndex :
    3 + 2 * 2 ≤ ([1, 3, 4, 0x00, 0x0A, 0x00, 0x14, 0xDA, 0x3E] : List Byte).length := by decide

theorem witness_ResetActionLeavesNoResponse : (withAction .reset).inputs = [.reset] := by decide

end Sys2Proof.Tests
end

section
/-! SUPPORT. The state family: the transient loops as whole equations, what every instruction and every step answers, and from these the
frame, the invariant and the result ports. -/

namespace Sys2Proof.Machine

/-! ### The loops on the transient state, every field at once -/

theorem workBits_eq (n : Nat) (w : Work) :
    workBits n w = { w with acc := crcBits n w.acc, k := w.k + BitVec.ofNat 3 n } := by
  induction n generalizing w with
  | zero => simp [workBits, crcBits]
  | succ n ih =>
    have hk : w.k + 1 + BitVec.ofNat 3 n = w.k + BitVec.ofNat 3 (n + 1) := by
      rw [BitVec.ofNat_add, BitVec.add_assoc, BitVec.add_comm 1]
      rfl
    rw [workBits, ih, workBit, crcBits]
    simp only [hk]

/-- Eight bit steps bring the 3-bit counter back to 0 (R110). -/
theorem workByte_eq (w : Work) (b : Byte) :
    workByte w b = { w with acc := crcStep w.acc b, k := 0, i := w.i + 1 } := by
  rw [workByte, workBits_eq]
  rfl

theorem foldl_workByte_eq (bs : List Byte) (w : Work) (hk : w.k = 0) :
    bs.foldl workByte w = { w with acc := bs.foldl crcStep w.acc, i := w.i + bs.length } := by
  induction bs generalizing w with
  | nil => rfl
  | cons b bs ih =>
    rw [List.foldl_cons, workByte_eq, ih _ rfl, ← hk]
    simp [Nat.add_assoc, Nat.add_comm 1]

theorem length_encodeU16Seq (vs : List Word) : (encodeU16Seq vs).length = 2 * vs.length := by
  induction vs with
  | nil => rfl
  | cons v vs ih =>
    simp [encodeU16Seq, u16ToBe, ih]
    omega

theorem exists_memRead_two {inp : List Byte} {off : Nat} (h : off + 2 ≤ inp.length) :
    ∃ hi lo, memRead inp off 2 = [hi, lo] :=
  List.length_eq_two.1 (by simp [memRead]; omega)

/-- Within its bound, every pass of the decoding loop finds its two bytes (R103). -/
theorem workDecodeWords_eq {inp : List Byte} {off : Nat} (n : Nat) (w : Work)
    (h : off + w.i + 2 * n ≤ inp.length) :
    workDecodeWords inp off n w =
      { w with res := w.res ++ decodeU16Seq inp (off + w.i) n, i := w.i + 2 * n } := by
  induction n generalizing w with
  | zero => simp [workDecodeWords, decodeU16Seq, memRead, decodePairs]
  | succ n ih =>
    obtain ⟨hi, lo, he⟩ := exists_memRead_two (inp := inp) (off := off + w.i) (by omega)
    have hw : workDecodeWord inp off w = { w with res := w.res ++ [beToU16 hi lo], i := w.i + 2 } := by
      simp [workDecodeWord, he]
    have hi2 : w.i + 2 + 2 * n = w.i + 2 * (n + 1) := by omega
    rw [workDecodeWords, hw, ih _ (by simp only; omega), decodeU16Seq_succ, he]
    simp [hi2, Nat.add_assoc]

theorem length_decodePairs_le (bs : List Byte) : 2 * (decodePairs bs).length ≤ bs.length := by
  induction bs using decodePairs.induct with
  | case1 hi lo rest ih =>
    simp [decodePairs]
    omega
  | case2 bs hn => simp [decodePairs]

theorem length_decodeU16Seq_le (inp : List Byte) (off n : Nat) : (decodeU16Seq inp off n).length ≤ n := by
  have hp := length_decodePairs_le (memRead inp off (2 * n))
  have hm : (memRead inp off (2 * n)).length ≤ 2 * n := List.length_take_le _ _
  rw [decodeU16Seq]
  omega

/-! ### Genuine payloads -/

/-- R114 (b), R130: a sealed body passes the verifier. -/
theorem verifyCrc_sealed (bs : List Byte) : verifyCrc (sealed bs) = some true := by
  have hr := receivedCrc_append bs (loByte (crc16 bs)) (hiByte (crc16 bs))
  have hb := body_append bs (loByte (crc16 bs)) (hiByte (crc16 bs))
  simp [verifyCrc, sealed, crcToLe, hr, hb, leToU16_crcToLe]

/-- R135: what the frame completion makes of a header with a request's function code is a request frame. -/
theorem payloadGenuine_frame_sealed {unit fc : Byte} {rest : List Byte} (hfc : fc = 0x03#8 ∨ fc = 0x10#8)
    (hlen : 4 ≤ rest.length) : PayloadGenuine (.frame (sealed (unit :: fc :: rest))) := by
  refine ⟨?_, verifyCrc_sealed _, ?_⟩
  · simp [sealed, crcToLe]
    omega
  · simpa [sealed] using hfc

/-! ### What each instruction answers -/

/-- An operation that, wherever it is started, completes with one genuine response. -/
def AnswersGenuinely (op : State → State) : Prop :=
  ∃ r, (∀ s, op s = complete s r) ∧ ResponseGenuine r

/-- R154, R155: whichever way the checks behind a length check go, the answer is genuine where the payload is. -/
theorem answersGenuinely_checks {received computed : Word} {actual unit : Byte} {p : Payload} (hp : PayloadGenuine p) :
    AnswersGenuinely fun s =>
      if received ≠ computed then complete s (.error (.checksumMismatch received computed))
      else if actual ≠ unit then complete s (.error (.unitMismatch actual unit))
      else complete s (.ok p) := by
  by_cases hc : received ≠ computed
  · exact ⟨_, fun s => if_pos hc, hc⟩
  · by_cases hu : actual ≠ unit
    · exact ⟨_, fun s => (if_neg hc).trans (if_pos hu), hu⟩
    · exact ⟨_, fun s => (if_neg hc).trans (if_neg hu), hp⟩

theorem readArm_answersGenuinely (inp : List Byte) (unit : Byte) :
    AnswersGenuinely fun s => readArm s inp unit := by
  match inp with
  | [] | [_] | [_, _] => exact ⟨_, fun s => readArm_short s _ unit (by simp), nofun, fun _ => by simp⟩
  | b₀ :: b₁ :: bc :: rest =>
    by_cases hlen : rest.length = bc.toNat + 2
    · obtain ⟨data, lo, hi, rfl⟩ := exists_body_append rest (by omega)
      have hdata : data.length = bc.toNat := by simpa using hlen
      have hbc : bc.toNat < 256 := bc.isLt
      have hvs := length_decodeU16Seq_le (b₀ :: b₁ :: bc :: data ++ [lo, hi]) 3 (bc.toNat / 2)
      obtain ⟨r, heq, hr⟩ := answersGenuinely_checks (p := .readResult _) (received := leToU16 lo hi)
        (computed := crc16 (b₀ :: b₁ :: bc :: data)) (actual := b₀) (unit := unit)
        (show _ ≤ 127 from hvs.trans (by omega))
      exact ⟨r, fun s => (readArm_append s b₀ b₁ bc data lo hi unit hdata).trans (heq s), hr⟩
    · have hne : some (bc.toNat + 5) ≠ some (rest.length + 3) := by simp; omega
      exact ⟨_, fun s => readArm_length s b₀ b₁ bc rest unit hlen, hne, nofun⟩

theorem writeArm_answersGenuinely (inp : List Byte) (unit : Byte) :
    AnswersGenuinely fun s => writeArm s inp unit := by
  by_cases hlen : inp.length = 8
  · match inp, hlen with
    | [b₀, b₁, sh, sl, qh, ql, lo, hi], _ =>
      obtain ⟨r, heq, hr⟩ := answersGenuinely_checks (p := .writeResult (beToU16 sh sl) (beToU16 qh ql))
        (received := leToU16 lo hi) (computed := crc16 [b₀, b₁, sh, sl, qh, ql]) (actual := b₀) (unit := unit) trivial
      exact ⟨r, fun s => (writeArm_append s b₀ b₁ sh sl qh ql lo hi unit).trans (heq s), hr⟩
  · have hne : some 8 ≠ some inp.length := by simpa using Ne.symm hlen
    exact ⟨_, fun s => writeArm_length s inp unit hlen, hne, nofun⟩

theorem buildWriteWith_answersGenuinely (unit : Byte) (start : Word) (values : List Word) :
    AnswersGenuinely fun s => buildWriteWith Config.pWriteMax (begin s) unit start values := by
  refine ⟨_, fun s => buildWriteWith_eq Config.pWriteMax s unit start values, ?_⟩
  cases hl : exceededLimit Config.pWriteMax values.length with
  | some limit => exact (exceededLimit_eq_some _ _ _).1 hl
  | none => exact payloadGenuine_frame_sealed (.inr rfl) (by simp [u16ToBe])

theorem exec_crc16 (inp : List Byte) (s : State) :
    exec (.crc16 inp) s = .next (complete s (.ok (.crc (crc16 inp)))) := by
  simp [exec, execCrc16, returnCrc]

/-- R123 for an input with a checksum field; without one it raises MalformedLength (`exec_verifyCrc_none`). -/
theorem exec_verifyCrc_some {inp : List Byte} {received : Word} (h : receivedCrc inp = some received) (s : State) :
    exec (.verifyCrc inp) s = .next (complete s (.ok (.matched (received == crc16 (body inp))))) := by
  simp [exec, execVerifyCrc, h, returnMatch]

theorem exec_verifyCrc_none {inp : List Byte} (h : receivedCrc inp = none) (s : State) :
    exec (.verifyCrc inp) s = .next (complete s (.error (.malformedLength inp.length none))) := by
  simp [exec, execVerifyCrc, h, raiseError]

theorem exec_rq03 (unit : Byte) (start qty : Word) (s : State) :
    exec (.rq03 unit start qty) s = .next (complete s (.ok (.frame (rq03Bytes unit start qty)))) := by
  simp only [exec, execRq03, sealFrame_eq, live_emit_begin_out, complete_emit, complete_begin, rq03Bytes]

/-- BUILD_READ builds the frame of the row RQ03 (R131, R61). -/
theorem exec_buildRead (unit : Byte) (start qty : Word) (s : State) :
    exec (.buildRead unit start qty) s = .next (complete s (.ok (.frame (rq03Bytes unit start qty)))) :=
  exec_rq03 unit start qty s

/-- R150, R151: without a function code there is no arm to select. -/
theorem exec_parseResponse_short {inp : List Byte} (h : inp.length < 2) (unit : Byte) (s : State) :
    exec (.parseResponse inp unit) s = .next (complete s (.error (.malformedLength inp.length none))) := by
  match inp, h with
  | [], _ => rfl
  | [_], _ => rfl

/-- R150, R67: the parser runs the response row its function code selects. -/
theorem exec_parseResponse_cons (addr fc unit : Byte) (rest : List Byte) (s : State) :
    exec (.parseResponse (addr :: fc :: rest) unit) s =
      if fc = 0x03#8 then exec (.rs03 (addr :: fc :: rest) unit) s
      else if fc = 0x10#8 then exec (.rs10 (addr :: fc :: rest) unit) s
      else exec (.rsUnsupported fc) s := rfl

/-- An instruction whose effect is an operation that answers genuinely. -/
theorem AnswersGenuinely.exec_answers {op : State → State} (h : AnswersGenuinely op) {i : Instr}
    (hi : ∀ s, exec i s = .next (op (begin s))) :
    ∃ r, (∀ s, exec i s = .next (complete s r)) ∧ ResponseGenuine r := by
  obtain ⟨r, heq, hr⟩ := h
  exact ⟨r, fun s => by rw [hi, heq, complete_begin], hr⟩

theorem exec_parseResponse_answers (inp : List Byte) (unit : Byte) :
    ∃ r, (∀ s, exec (.parseResponse inp unit) s = .next (complete s r)) ∧ ResponseGenuine r := by
  match inp with
  | [] | [_] => exact ⟨_, exec_parseResponse_short (by simp) unit, nofun, fun _ => by simp⟩
  | addr :: fc :: rest =>
    simp only [exec_parseResponse_cons]
    by_cases h3 : fc = 0x03#8
    · simp only [if_pos h3]
      exact (readArm_answersGenuinely (addr :: fc :: rest) unit).exec_answers fun _ => rfl
    · by_cases h16 : fc = 0x10#8
      · simp only [if_neg h3, if_pos h16]
        exact (writeArm_answersGenuinely (addr :: fc :: rest) unit).exec_answers fun _ => rfl
      · simp only [if_neg h3, if_neg h16]
        exact ⟨.error (.unsupportedFunctionCode fc), fun _ => rfl, h3, h16⟩

/-- What an instruction can do: it completes with one response, the same in every state, and genuine where the instruction is well
formed (R20, R22, R200). -/
theorem exec_answers (i : Instr) :
    ∃ r, (∀ s, exec i s = .next (complete s r)) ∧ (i.wellFormed = true → ResponseGenuine r) := by
  have of_genuine {i : Instr} (h : ∃ r, (∀ s, exec i s = .next (complete s r)) ∧ ResponseGenuine r) :
      ∃ r, (∀ s, exec i s = .next (complete s r)) ∧ (i.wellFormed = true → ResponseGenuine r) :=
    h.imp fun _ ⟨heq, hr⟩ => ⟨heq, fun _ => hr⟩
  cases i with
  | crc16 inp => exact ⟨_, exec_crc16 inp, fun _ => trivial⟩
  | verifyCrc inp =>
    cases h : receivedCrc inp with
    | none =>
      have hlen := (receivedCrc_eq_none inp).1 h
      exact ⟨_, exec_verifyCrc_none h, fun _ => ⟨nofun, fun _ => by omega⟩⟩
    | some received => exact ⟨_, exec_verifyCrc_some h, fun _ => trivial⟩
  | buildRead unit start qty =>
    exact ⟨_, exec_buildRead unit start qty, fun _ => payloadGenuine_frame_sealed (.inl rfl) (by simp)⟩
  | buildWrite unit start values =>
    exact of_genuine ((buildWriteWith_answersGenuinely unit start values).exec_answers fun _ => rfl)
  | parseResponse inp unit => exact of_genuine (exec_parseResponse_answers inp unit)
  | rq03 unit start qty =>
    exact ⟨_, exec_rq03 unit start qty, fun _ => payloadGenuine_frame_sealed (.inl rfl) (by simp)⟩
  | rq10 unit start values =>
    exact of_genuine ((buildWriteWith_answersGenuinely unit start values).exec_answers fun _ => rfl)
  | rs03 inp unit => exact of_genuine ((readArm_answersGenuinely inp unit).exec_answers fun _ => rfl)
  | rs10 inp unit => exact of_genuine ((writeArm_answersGenuinely inp unit).exec_answers fun _ => rfl)
  | rsUnsupported fc =>
    exact ⟨.error (.unsupportedFunctionCode fc), fun _ => rfl,
      fun h => by simpa [Instr.wellFormed, ResponseGenuine, ErrorGenuine] using h⟩

/-! ### What the decoder accepts and rejects -/

theorem decodeCommand_wellFormed {cmd : Byte} {p : Ports} {i : Instr} (h : decodeCommand cmd p = .ok i) :
    i.wellFormed = true := by
  unfold decodeCommand at h
  split_ifs at h <;> cases h <;> rfl

theorem decodeRequest_wellFormed {fc : Byte} {p : Ports} {i : Instr} (h : decodeRequest fc p = .ok i) :
    i.wellFormed = true := by
  unfold decodeRequest at h
  split_ifs at h <;> cases h <;> rfl

theorem decodeResponse_wellFormed {inp : List Byte} {unit : Byte} {i : Instr} (h : decodeResponse inp unit = .ok i) :
    i.wellFormed = true := by
  match inp, h with
  | _ :: fc :: _, h =>
    simp only [decodeResponse] at h
    split_ifs at h with h3 h16 <;> cases h
    · simp [Instr.wellFormed, h3]
    · simp [Instr.wellFormed, h16]
    · simp [Instr.wellFormed, h3, h16]

/-- Whatever the decoder accepts is well formed (R67, R69, R71). -/
theorem decode_wellFormed {d : Descriptor} {i : Instr} (h : decode d = .ok i) : i.wellFormed = true := by
  cases d with
  | command cmd p => exact decodeCommand_wellFormed h
  | framer fc p => exact decodeRequest_wellFormed h
  | parser inp unit => exact decodeResponse_wellFormed h

/-- A rejected command code is a reserved one (R70, R71). -/
theorem decodeCommand_error {cmd : Byte} {p : Ports} {r : Reject} (h : decodeCommand cmd p = .error r) :
    r = .reservedCommand cmd ∧ (cmd.toNat = 0 ∨ 6 ≤ cmd.toNat) := by
  unfold decodeCommand at h
  split_ifs at h with h1 h2 h3 h4 h5
  cases h
  refine ⟨rfl, ?_⟩
  bv_omega

theorem decodeRequest_error {fc : Byte} {p : Ports} {r : Reject} (h : decodeRequest fc p = .error r) :
    r = .noRequestFormat fc := by
  unfold decodeRequest at h
  split_ifs at h
  cases h
  rfl

theorem decodeResponse_error {inp : List Byte} {unit : Byte} {r : Reject} (h : decodeResponse inp unit = .error r) :
    r = .noFunctionCode inp.length ∧ inp.length < 2 := by
  match inp, h with
  | [], h | [_], h =>
    cases h
    simp
  | _ :: fc :: _, h =>
    simp only [decodeResponse] at h
    split_ifs at h

/-- The answer to what is no instruction is a genuine error, where it is an answer. -/
theorem answerReject_next {d : Descriptor} {r : Reject} {s t : State} (hd : decode d = .error r)
    (h : answerReject r s = .next t) : ∃ e, ErrorGenuine e ∧ t = complete s (.error e) := by
  cases d with
  | command cmd p =>
    obtain ⟨rfl, hcode⟩ := decodeCommand_error hd
    cases h
    exact ⟨.illegalCommand cmd, hcode, rfl⟩
  | framer fc p =>
    cases decodeRequest_error hd
    cases h
  | parser inp unit =>
    obtain ⟨rfl, hlen⟩ := decodeResponse_error hd
    cases h
    exact ⟨.malformedLength inp.length none, ⟨nofun, fun _ => by omega⟩, rfl⟩

/-! ### What a step can do -/

theorem step_idle {s : State} (h : s.inputs = []) : step s = .next s := by
  simp [step, h]

theorem step_issue_ok {s : State} {d : Descriptor} {rest : List HostAction} {i : Instr}
    (h : s.inputs = .issue d :: rest) (hd : decode d = .ok i) : step s = exec i { s with inputs := rest } := by
  simp [step, h, hd]

theorem step_issue_error {s : State} {d : Descriptor} {rest : List HostAction} {r : Reject}
    (h : s.inputs = .issue d :: rest) (hd : decode d = .error r) :
    step s = answerReject r { s with inputs := rest } := by
  simp [step, h, hd]

theorem step_readPort {s : State} {p : ResultPort} {rest : List HostAction} (h : s.inputs = .readPort p :: rest) :
    step s = hostRead p { s with inputs := rest } := by
  simp [step, h]

theorem step_reset {s : State} {rest : List HostAction} (h : s.inputs = .reset :: rest) :
    step s = .next (resetEngine { s with inputs := rest }) := by
  simp [step, h]

theorem hostRead_noResponse {s : State} (h : s.result = none) (p : ResultPort) : hostRead p s = .fault (.noResponse p) := by
  simp [hostRead, h]

theorem hostRead_value {s : State} {r : Response} {p : ResultPort} {v : PortValue} (h : s.result = some r)
    (hv : portValue r p = some v) : hostRead p s = .next { s with readback := some v } := by
  simp [hostRead, h, hv]

theorem hostRead_noValue {s : State} {r : Response} {p : ResultPort} (h : s.result = some r)
    (hv : portValue r p = none) : hostRead p s = .fault (.portHasNoValue p) := by
  simp [hostRead, h, hv]

/-- The next states of a step: nothing happened, a genuine response was delivered, a port was read, or the engine was reset. -/
theorem step_next {s t : State} (h : step s = .next t) :
    (s.inputs = [] ∧ t = s) ∨
    (∃ d rest r, s.inputs = .issue d :: rest ∧ ResponseGenuine r ∧ t = complete { s with inputs := rest } r) ∨
    (∃ p rest v, s.inputs = .readPort p :: rest ∧ t = { s with inputs := rest, readback := some v }) ∨
    (∃ rest, s.inputs = .reset :: rest ∧ t = resetEngine { s with inputs := rest }) := by
  match hin : s.inputs with
  | [] =>
    rw [step_idle hin] at h
    cases h
    exact .inl ⟨rfl, rfl⟩
  | .issue d :: rest =>
    refine .inr (.inl ⟨d, rest, ?_⟩)
    cases hd : decode d with
    | ok i =>
      obtain ⟨r, heq, hr⟩ := exec_answers i
      rw [step_issue_ok hin hd, heq] at h
      cases h
      exact ⟨r, rfl, hr (decode_wellFormed hd), rfl⟩
    | error rej =>
      rw [step_issue_error hin hd] at h
      obtain ⟨e, he, rfl⟩ := answerReject_next hd h
      exact ⟨.error e, rfl, he, rfl⟩
  | .readPort p :: rest =>
    rw [step_readPort hin] at h
    obtain ⟨r, v, -, -, rfl⟩ := hostRead_next h
    exact .inr (.inr (.inl ⟨p, rest, v, rfl, rfl⟩))
  | .reset :: rest =>
    rw [step_reset hin] at h
    cases h
    exact .inr (.inr (.inr ⟨rest, rfl, rfl⟩))

/-! ### What keeps the invariant -/

theorem Inv.complete {s : State} (h : Inv s) {r : Response} (hr : ResponseGenuine r) : Inv (complete s r) := by
  obtain ⟨-, -, hgenuine⟩ := h
  refine ⟨rfl, fun r' hr' => ?_, fun r' hr' => ?_⟩
  · simpa using hr'
  · rcases List.mem_append.1 hr' with hold | hnew
    · exact hgenuine r' hold
    · rwa [List.mem_singleton.1 hnew]

theorem Inv.resetEngine {s : State} (h : Inv s) : Inv (resetEngine s) := by
  obtain ⟨-, -, hgenuine⟩ := h
  exact ⟨rfl, nofun, hgenuine⟩

/-- The host's own fields are not in the invariant. -/
theorem Inv.with_host {s : State} (h : Inv s) (inputs : List HostAction) (readback : Option PortValue) :
    Inv { s with inputs, readback } := h

/-! ### Operand and result ports -/

theorem toNat_trunc8 (n : Int) : ((trunc8 n).toNat : Int) = n % 256 := by
  rw [trunc8, BitVec.toNat_ofInt]
  omega

theorem toNat_trunc16 (n : Int) : ((trunc16 n).toNat : Int) = n % 65536 := by
  rw [trunc16, BitVec.toNat_ofInt]
  omega

/-- Only a response with a payload has status 0 (R200). -/
theorem errorStatus_ne_zero (e : ErrorRecord) : errorStatus e ≠ 0 := by
  cases e <;> simp [errorStatus]

theorem portValue_status (r : Response) : portValue r .status = some (.byte (statusOf r)) := by
  cases r <;> rfl

theorem portValue_ok_errorRecord (p : Payload) : portValue (.ok p) .errorRecord = none := by
  cases p <;> rfl

/-- Of an error response, the ports beside the status hold the record alone (R22). -/
theorem portValue_error (e : ErrorRecord) {port : ResultPort} (h : port ≠ .status) :
    portValue (.error e) port = if port = .errorRecord then some (.record e) else none := by
  cases port with
  | status => exact absurd rfl h
  | _ => rfl

/-! ### The obligations -/

/-- Settles O3: each kind of next state keeps the invariant. -/
theorem everyStepKeepsTheInvariant : Obligations.EveryStepKeepsTheInvariant := by
  intro s t hs ht
  obtain ⟨-, rfl⟩ | ⟨_, rest, r, -, hr, rfl⟩ | ⟨_, rest, v, -, rfl⟩ | ⟨rest, -, rfl⟩ := step_next ht
  · exact hs
  · exact (hs.with_host rest s.readback).complete hr
  · exact hs.with_host rest (some v)
  · exact (hs.with_host rest s.readback).resetEngine

/-- Settles O2: nothing is delivered and no result is available. -/
theorem resetMeetsTheInvariant : Obligations.ResetMeetsTheInvariant :=
  ⟨rfl, nofun, nofun⟩

/-- Settles O4, which is the step's equation for an accepted descriptor. -/
theorem stepRunsTheDecodedInstruction : Obligations.StepRunsTheDecodedInstruction :=
  fun _ _ _ _ => step_issue_ok

/-- Settles O7, from the fields of a completed command. -/
theorem execChangesOnlyItsResponse : Obligations.ExecChangesOnlyItsResponse := by
  intro i s
  obtain ⟨r, heq, -⟩ := exec_answers i
  exact ⟨r, complete s r, heq s, rfl, rfl, rfl, rfl, rfl⟩

/-- Settles O8: the response of `exec_answers` is chosen before the state. -/
theorem responseDependsOnOperandsAlone : Obligations.ResponseDependsOnOperandsAlone := by
  choose f heq _ using exec_answers
  exact ⟨f, heq⟩

/-- Settles O9: a completed command keeps no transient state. -/
theorem transientStateNeverLeaks : Obligations.TransientStateNeverLeaks := by
  intro i s w
  obtain ⟨r, heq, -⟩ := exec_answers i
  rw [heq, heq, complete_with_work]

/-- Settles O26: the loop over the bytes, from the seed and `k = i = 0`. -/
theorem crcLoopComputesTheCrc : Obligations.CrcLoopComputesTheCrc := by
  intro w bs
  rw [workCrc, foldl_workByte_eq _ _ rfl, crc16, Nat.zero_add]

/-- Settles O60: each loop from `i = 0`, the decoding one within its bound. -/
theorem marshallingLoopsRunTheByteIndex : Obligations.MarshallingLoopsRunTheByteIndex := by
  refine ⟨fun w vs => ?_, fun w inp off n h => ?_⟩
  · simp [workEncode, foldl_workEncodeWord, length_encodeU16Seq]
  · rw [workDecode, workDecodeWords_eq n _ h]
    simp

/-- Settles O23, port by port. -/
theorem hostIntegersAreReducedToPortWidth : Obligations.HostIntegersAreReducedToPortWidth := by
  intro inp values unit start qty
  refine ⟨toNat_trunc8 unit, toNat_trunc16 start, toNat_trunc16 qty, ?_, ?_⟩
  · simp [Ports.ofHost, toNat_trunc8]
  · simp [Ports.ofHost, toNat_trunc16]

/-- Settles O56: the first part by the kind of response, the second port by port. -/
theorem responsesCarryAPayloadOrAnErrorRecord : Obligations.ResponsesCarryAPayloadOrAnErrorRecord := by
  constructor
  · intro r
    refine ⟨fun h => ?_, fun h => ?_, portValue_status r⟩
    · cases r with
      | ok p => exact ⟨portValue_ok_errorRecord p, p, rfl⟩
      | error e => exact absurd h (errorStatus_ne_zero e)
    · cases r with
      | ok p => exact absurd rfl h
      | error e =>
        refine ⟨⟨e, rfl, rfl⟩, fun port hs he => ?_⟩
        rw [portValue_error e hs, if_neg he]
  · intro port hs
    refine ⟨?_, ?_, ?_, ?_, ?_, fun e => portValue_error e hs⟩
    all_goals
      cases port with
      | status => exact absurd rfl hs
      | _ => intros; rfl

/-- Settles O57: the read is `hostRead` where the result ports are empty. -/
theorem readBeforeTheFirstResponseFaults : Obligations.ReadBeforeTheFirstResponseFaults := by
  intro s port rest hin hnone
  rw [step_readPort hin, hostRead_noResponse]
  exact hnone

/-- Settles O58: the read is `hostRead` where a response is available. -/
theorem resultPortReadHasNoSideEffect : Obligations.ResultPortReadHasNoSideEffect := by
  intro s port rest r hin hr
  rw [step_readPort hin]
  exact ⟨fun v hv => hostRead_value hr hv, fun hv => hostRead_noValue hr hv⟩

end Sys2Proof.Machine
end

section
/-! SUPPORT. The memory family: what a step answers to a command, and from it a run over a list of issued commands. -/

namespace Sys2Proof.Machine

/-! ### What a step answers to a command -/

theorem answerReject_reservedCommand (code : Byte) (s : State) :
    answerReject (.reservedCommand code) s = .next (complete s (.error (.illegalCommand code))) := rfl

/-- A command code and its operands fix one response, which a step delivers in every state that issues them (R20, R52 (b), R71). -/
theorem step_command_answers (cmd : Byte) (ports : Ports) :
    ∃ r, ∀ (s : State) (rest : List HostAction), s.inputs = .issue (.command cmd ports) :: rest →
      step s = .next (complete { s with inputs := rest } r) := by
  cases hd : decode (.command cmd ports) with
  | ok i =>
    obtain ⟨r, heq, -⟩ := exec_answers i
    exact ⟨r, fun s rest h => (step_issue_ok h hd).trans (heq _)⟩
  | error rej =>
    obtain ⟨rfl, -⟩ := decodeCommand_error hd
    exact ⟨_, fun s rest h => (step_issue_error h hd).trans (answerReject_reservedCommand cmd _)⟩

/-! ### A run over issued commands -/

/-- The host's list that issues the given commands, each a code with its ports, and nothing else. -/
def issueAll (cs : List (Byte × Ports)) : List HostAction :=
  cs.map fun c => .issue (.command c.1 c.2)

theorem run_succ_of_step {s t : State} (h : step s = .next t) (n : Nat) :
    Host.Core.run Sys2Proof.core (n + 1) s = Host.Core.run Sys2Proof.core n t := by
  simp only [Host.Core.run, Sys2Proof.core, h]

/-- R52 (b), R250: where `f` gives every command's response, a run over issued commands delivers the responses in issue order. -/
theorem run_issueAll {f : Byte → Ports → Response}
    (hf : ∀ (cmd : Byte) (ports : Ports) (s : State) (rest : List HostAction),
      s.inputs = .issue (.command cmd ports) :: rest →
      step s = .next (complete { s with inputs := rest } (f cmd ports)))
    (cs : List (Byte × Ports)) (s : State) (hs : s.inputs = issueAll cs) :
    ∃ t : State, Host.Core.run Sys2Proof.core cs.length s = .next t ∧ t.inputs = [] ∧
      t.delivered = s.delivered ++ cs.map fun c => f c.1 c.2 := by
  induction cs generalizing s with
  | nil => exact ⟨s, rfl, hs, (List.append_nil _).symm⟩
  | cons c cs ih =>
    have hstep := hf c.1 c.2 s (issueAll cs) hs
    obtain ⟨t, hrun, hin, hdel⟩ := ih (complete { s with inputs := issueAll cs } (f c.1 c.2)) rfl
    refine ⟨t, (run_succ_of_step hstep cs.length).trans hrun, hin, ?_⟩
    simp [hdel]

/-- Settles O10: the responses of `step_command_answers`, delivered one a step. -/
theorem commandsCompleteInIssueOrder : Obligations.CommandsCompleteInIssueOrder := by
  choose f hf using step_command_answers
  exact ⟨f, run_issueAll hf⟩

end Sys2Proof.Machine
end

section
/-! SUPPORT. The encoding family: the bytes of a field and of a sequence of values, the parts of a sealed frame, what the decoder, a
command line and a receiver read back, and what the builders and the parser answer in terms of the wire formats. -/

namespace Sys2Proof.Machine

/-! ### Fields and sequences of values -/

/-- R104 for one value: its two bytes give it back. -/
theorem beToU16_hiByte_loByte (v : Word) : beToU16 (hiByte v) (loByte v) = v :=
  (BitVec.or_comm ..).trans (leToU16_crcToLe v)

theorem toNat_hiByte (v : Word) : (hiByte v).toNat = v.toNat / 256 := by
  have hv : v.toNat < 65536 := v.isLt
  simp [hiByte, Nat.shiftRight_eq_div_pow]
  omega

theorem toNat_loByte (v : Word) : (loByte v).toNat = v.toNat % 256 := by
  simp [loByte]

/-- Up to 127 values the quantity and the byte count have not wrapped (R134). -/
theorem toNat_quantityField {n : Nat} (h : n ≤ 127) : (quantityField n).toNat = n := by
  simp [quantityField]
  omega

theorem toNat_byteCountField {n : Nat} (h : n ≤ 127) : (byteCountField n).toNat = 2 * n := by
  simp [byteCountField]
  omega

/-- The data field of R62 and R63 is the marshaller's encoding (R102). -/
theorem flatMap_bytes_eq_encodeU16Seq (vs : List Word) :
    (vs.flatMap fun v => [hiByte v, loByte v]) = encodeU16Seq vs := by
  induction vs with
  | nil => rfl
  | cons v vs ih => rw [List.flatMap_cons, ih, encodeU16Seq, u16ToBe]

theorem decodePairs_encodeU16Seq (vs : List Word) : decodePairs (encodeU16Seq vs) = vs := by
  induction vs with
  | nil => rfl
  | cons v vs ih => simp [encodeU16Seq, u16ToBe, decodePairs, beToU16_hiByte_loByte, ih]

/-- R103 on a data field between other bytes. -/
theorem decodeU16Seq_append (pre data post : List Byte) {n : Nat} (h : 2 * n ≤ data.length) :
    decodeU16Seq (pre ++ (data ++ post)) pre.length n = decodePairs (data.take (2 * n)) := by
  rw [decodeU16Seq, memRead, List.drop_left, List.take_append_of_le_length h]

theorem encodeU16Seq_getElem? {vs : List Word} {j : Nat} {v : Word} (h : vs[j]? = some v) :
    (encodeU16Seq vs)[2 * j]? = some (hiByte v) ∧ (encodeU16Seq vs)[2 * j + 1]? = some (loByte v) := by
  induction vs generalizing j with
  | nil => simp at h
  | cons w vs ih =>
    cases j with
    | zero =>
      obtain rfl : w = v := by simpa using h
      exact ⟨rfl, rfl⟩
    | succ j => exact ih (by simpa using h)

/-! ### The parts of a sealed frame -/

theorem length_sealed (bs : List Byte) : (sealed bs).length = bs.length + 2 := by
  simp [sealed, crcToLe]

theorem body_sealed (bs : List Byte) : body (sealed bs) = bs := body_append bs _ _

theorem take_sealed (bs : List Byte) : (sealed bs).take bs.length = bs := List.take_left

theorem sealed_getElem?_of_lt {bs : List Byte} {n : Nat} (h : n < bs.length) : (sealed bs)[n]? = bs[n]? :=
  List.getElem?_append_left h

/-- The CRC field, low byte first (R60). -/
theorem sealed_getElem?_crc (bs : List Byte) :
    (sealed bs)[bs.length]? = some (loByte (crc16 bs)) ∧ (sealed bs)[bs.length + 1]? = some (hiByte (crc16 bs)) := by
  simp [sealed, crcToLe]

/-- A frame verifies exactly where its CRC field is the CRC of its body (R122). -/
theorem verifyCrc_append (bs : List Byte) (lo hi : Byte) :
    verifyCrc (bs ++ [lo, hi]) = some true ↔ leToU16 lo hi = crc16 bs := by
  simp [verifyCrc, receivedCrc_append, body_append]

/-! ### What the decoder reads -/

/-- R67: the dispatch compares all 8 bits of the byte at offset 1. -/
theorem decode_parser_cons (addr fc unit : Byte) (rest : List Byte) :
    decode (.parser (addr :: fc :: rest) unit) =
      .ok (if fc = 0x03#8 then .rs03 (addr :: fc :: rest) unit
        else if fc = 0x10#8 then .rs10 (addr :: fc :: rest) unit
        else .rsUnsupported fc) := by
  simp only [decode, decodeResponse, apply_ite Except.ok]

/-- A list with a function code at offset 1 begins with a unit and that code. -/
theorem exists_cons_cons_of_getElem?_one {inp : List Byte} {fc : Byte} (h : inp[1]? = some fc) :
    ∃ addr rest, inp = addr :: fc :: rest := by
  match inp, h with
  | addr :: _ :: rest, h => exact ⟨addr, rest, by simpa using h⟩

/-- R71: codes 0 and 6 to 255 are reserved. -/
theorem decode_command_reserved {cmd : Byte} (h : cmd.toNat = 0 ∨ 6 ≤ cmd.toNat) (p : Ports) :
    decode (.command cmd p) = .error (.reservedCommand cmd) := by
  have hne (c : Byte) (hc : 1 ≤ c.toNat ∧ c.toNat ≤ 5) : cmd ≠ c := by
    rintro rfl
    omega
  simp [decode, decodeCommand, hne]

/-! ### What the lists of a command line read back as -/

theorem listTail_tailTokens (ns : List Nat) (rest : List Token) :
    listTail (tailTokens ns ++ rest) = some (ns, rest) := by
  induction ns with
  | nil => rfl
  | cons n ns ih => simp [tailTokens, listTail, ih]

theorem readList_listTokens (ns : List Nat) (rest : List Token) :
    readList (listTokens ns ++ rest) = some (ns, rest) := by
  cases ns with
  | nil => rfl
  | cons n ns => simp [listTokens, readList, listTail_tailTokens]

theorem trunc8_toNat (b : Byte) : trunc8 b.toNat = b := by simp [trunc8]

theorem trunc16_toNat (v : Word) : trunc16 v.toNat = v := by simp [trunc16]

/-- A number no wider than its port is not changed by R23's reduction. -/
theorem toBytes_map_toNat (bs : List Byte) : toBytes (bs.map (·.toNat)) = bs := by
  simp [toBytes, Function.comp_def, trunc8_toNat]

theorem toWords_map_toNat (vs : List Word) : toWords (vs.map (·.toNat)) = vs := by
  simp [toWords, Function.comp_def, trunc16_toNat]

/-! ### What a receiver reads from a request frame -/

theorem readRequest_read (unit sh sl qh ql : Byte) :
    readRequest (sealed [unit, 0x03#8, sh, sl, qh, ql]) = .ok (.rq03 unit (beToU16 sh sl) (beToU16 qh ql)) := by
  simp [readRequest, verifyCrc_sealed, body_sealed]

/-- A write request whose byte count is the length of its data and twice its quantity is accepted (R66). -/
theorem readRequest_write (unit sh sl qh ql bc : Byte) {data : List Byte} (hlen : data.length = bc.toNat)
    (hqty : 2 * (beToU16 qh ql).toNat = bc.toNat) :
    readRequest (sealed (unit :: 0x10#8 :: sh :: sl :: qh :: ql :: bc :: data)) =
      .ok (.rq10 unit (beToU16 sh sl) (decodePairs data)) := by
  simp [readRequest, verifyCrc_sealed, body_sealed, hlen, hqty]

/-! ### The write request -/

/-- The fields of R62 before the data field. -/
def writeHeader (unit : Byte) (start : Word) (n : Nat) : List Byte :=
  [unit, 0x10#8, hiByte start, loByte start, hiByte (quantityField n), loByte (quantityField n), byteCountField n]

theorem rq10Bytes_eq (unit : Byte) (start : Word) (values : List Word) :
    rq10Bytes unit start values = sealed (writeHeader unit start values.length ++ encodeU16Seq values) := by
  rw [rq10Bytes, flatMap_bytes_eq_encodeU16Seq, writeHeader]

/-- The body of a write request has `7 + 2N` bytes. -/
theorem length_writeBody (unit : Byte) (start : Word) (values : List Word) :
    (writeHeader unit start values.length ++ encodeU16Seq values).length = 7 + 2 * values.length := by
  rw [List.length_append, length_encodeU16Seq]
  rfl

/-- A field of the header stands at its offset in the frame. -/
theorem rq10Bytes_getElem?_header (unit : Byte) (start : Word) (values : List Word) {n : Nat} (hn : n < 7) :
    (rq10Bytes unit start values)[n]? = (writeHeader unit start values.length)[n]? := by
  rw [rq10Bytes_eq, sealed_getElem?_of_lt (by rw [length_writeBody]; omega), List.getElem?_append_left hn]

/-- Value `j` stands at offsets `7 + 2j` and `8 + 2j`. -/
theorem rq10Bytes_getElem?_value (unit : Byte) (start : Word) {values : List Word} {j : Nat} {v : Word}
    (h : values[j]? = some v) :
    (rq10Bytes unit start values)[7 + 2 * j]? = some (hiByte v) ∧
      (rq10Bytes unit start values)[8 + 2 * j]? = some (loByte v) := by
  obtain ⟨hj, -⟩ := List.getElem?_eq_some_iff.1 h
  have hdata (k : Nat) (hk : k < 2 * values.length) :
      (rq10Bytes unit start values)[7 + k]? = (encodeU16Seq values)[k]? := by
    rw [rq10Bytes_eq, sealed_getElem?_of_lt (by rw [length_writeBody]; omega)]
    exact List.getElem?_append_right (Nat.le_add_right 7 k) |>.trans (by simp [writeHeader])
  obtain ⟨hhi, hlo⟩ := encodeU16Seq_getElem? h
  refine ⟨(hdata _ (by omega)).trans hhi, ?_⟩
  rw [show 8 + 2 * j = 7 + (2 * j + 1) by omega]
  exact (hdata _ (by omega)).trans hlo

/-- R132: no bound of the parameter is exceeded where the count is within each. -/
theorem exceededLimit_eq_none {m : WriteMax} {n : Nat} (h : ∀ limit, m.limit = some limit → n ≤ limit) :
    exceededLimit m n = none := by
  refine Option.eq_none_iff_forall_ne_some.2 fun limit hl => ?_
  obtain ⟨hm, hlt⟩ := (exceededLimit_eq_some m n limit).1 hl
  exact absurd (h limit hm) (by omega)

/-- R133: a count that exceeds no limit gives the frame of R62. -/
theorem buildWriteWith_accepted {m : WriteMax} {values : List Word} (h : exceededLimit m values.length = none)
    (s : State) (unit : Byte) (start : Word) :
    buildWriteWith m (begin s) unit start values = complete s (.ok (.frame (rq10Bytes unit start values))) := by
  rw [buildWriteWith_eq, h, rq10Bytes_eq]
  rfl

/-! ### The parser's arms on the wire formats -/

theorem exec_parseResponse_read (addr unit : Byte) (rest : List Byte) (s : State) :
    exec (.parseResponse (addr :: 0x03#8 :: rest) unit) s = .next (readArm (begin s) (addr :: 0x03#8 :: rest) unit) := rfl

theorem exec_parseResponse_write (addr unit : Byte) (rest : List Byte) (s : State) :
    exec (.parseResponse (addr :: 0x10#8 :: rest) unit) s = .next (writeArm (begin s) (addr :: 0x10#8 :: rest) unit) := rfl

/-- R156, R157: a sealed 0x03 frame of the right length from the expected unit is decoded. -/
theorem readArm_sealed (s : State) (unit fc bc : Byte) {data : List Byte} (h : data.length = bc.toNat) :
    readArm s (sealed (unit :: fc :: bc :: data)) unit =
      complete s (.ok (.readResult (decodePairs (data.take (2 * (bc.toNat / 2)))))) := by
  have hd := decodeU16Seq_append [unit, fc, bc] data (crcToLe (crc16 (unit :: fc :: bc :: data)))
    (n := bc.toNat / 2) (by omega)
  refine (readArm_append s unit fc bc data _ _ unit h).trans ?_
  rw [leToU16_crcToLe, if_neg (not_not.2 rfl), if_neg (not_not.2 rfl), ← hd]
  rfl

/-- R158: a sealed 0x10 frame from the expected unit is echoed. -/
theorem writeArm_sealed (s : State) (unit fc sh sl qh ql : Byte) :
    writeArm s (sealed [unit, fc, sh, sl, qh, ql]) unit =
      complete s (.ok (.writeResult (beToU16 sh sl) (beToU16 qh ql))) := by
  refine (writeArm_append s unit fc sh sl qh ql _ _ unit).trans ?_
  rw [leToU16_crcToLe, if_neg (not_not.2 rfl), if_neg (not_not.2 rfl)]

/-! ### What a payload says of the instruction that returned it -/

/-- R60, R161: what a frame is that the parser accepts from a unit. -/
def AcceptedFrame (inp : List Byte) (unit : Byte) : Prop :=
  5 ≤ inp.length ∧ verifyCrc inp = some true ∧ inp[0]? = some unit

/-- R154, R155: the checks behind a length check let a payload through only for a valid checksum and the expected unit. -/
theorem checks_passed {s : State} {received computed : Word} {actual unit : Byte} {p q : Payload}
    (h : (if received ≠ computed then complete s (.error (.checksumMismatch received computed))
      else if actual ≠ unit then complete s (.error (.unitMismatch actual unit))
      else complete s (.ok q)).result = some (.ok p)) : received = computed ∧ actual = unit := by
  split_ifs at h with hc hu
  · cases h
  · cases h
  · exact ⟨not_not.1 hc, not_not.1 hu⟩

theorem acceptedFrame_of_readArm {s : State} {inp : List Byte} {unit : Byte} {p : Payload}
    (h : (readArm s inp unit).result = some (.ok p)) : AcceptedFrame inp unit := by
  match inp, h with
  | [], h | [_], h | [_, _], h => cases h
  | b₀ :: b₁ :: bc :: rest, h =>
    by_cases hlen : rest.length = bc.toNat + 2
    · obtain ⟨data, lo, hi, rfl⟩ := exists_body_append rest (by omega)
      have happ := readArm_append s b₀ b₁ bc data lo hi unit (by simpa using hlen)
      obtain ⟨hc, rfl⟩ := checks_passed (happ ▸ h)
      exact ⟨by simp, (verifyCrc_append (b₀ :: b₁ :: bc :: data) lo hi).2 hc, rfl⟩
    · rw [readArm_length s b₀ b₁ bc rest unit hlen] at h
      cases h

theorem acceptedFrame_of_writeArm {s : State} {inp : List Byte} {unit : Byte} {p : Payload}
    (h : (writeArm s inp unit).result = some (.ok p)) : AcceptedFrame inp unit := by
  by_cases hlen : inp.length = 8
  · match inp, hlen, h with
    | [b₀, b₁, sh, sl, qh, ql, lo, hi], _, h =>
      rw [writeArm_append] at h
      obtain ⟨hc, rfl⟩ := checks_passed h
      exact ⟨by simp, (verifyCrc_append [b₀, b₁, sh, sl, qh, ql] lo hi).2 hc, rfl⟩
  · rw [writeArm_length s inp unit hlen] at h
    cases h

/-- Every payload is genuine: an ill-formed response row runs the same arm, and the ill-formed unsupported row raises an error. -/
theorem exec_payload_genuine {i : Instr} {s t : State} {p : Payload} (h : exec i s = .next t)
    (hp : t.result = some (.ok p)) : PayloadGenuine p := by
  have of_answers (hi : ∃ r, (∀ s, exec i s = .next (complete s r)) ∧ ResponseGenuine r) : PayloadGenuine p := by
    obtain ⟨r, heq, hr⟩ := hi
    cases (heq s).symm.trans h
    cases hp
    exact hr
  cases i with
  | rs03 inp unit => exact of_answers ((readArm_answersGenuinely inp unit).exec_answers fun _ => rfl)
  | rs10 inp unit => exact of_answers ((writeArm_answersGenuinely inp unit).exec_answers fun _ => rfl)
  | rsUnsupported fc =>
    cases h
    cases hp
  | _ => exact of_answers ((exec_answers _).imp fun _ ⟨heq, hr⟩ => ⟨heq, hr rfl⟩)

/-! ### The obligations -/

/-- Settles O17: each frame is a sealed body that the receiver accepts, and each field decodes to its operand. -/
theorem requestFramesReadBackWhole : Obligations.RequestFramesReadBackWhole := by
  refine ⟨fun unit start qty => ?_, fun unit start values h => ?_⟩
  · rw [rq03Bytes, readRequest_read, beToU16_hiByte_loByte, beToU16_hiByte_loByte]
  · have hbc := toNat_byteCountField h
    have hlen : (encodeU16Seq values).length = (byteCountField values.length).toNat := by
      rw [length_encodeU16Seq, hbc]
    have hqty : 2 * (beToU16 (hiByte (quantityField values.length)) (loByte (quantityField values.length))).toNat =
        (byteCountField values.length).toNat := by
      rw [beToU16_hiByte_loByte, toNat_quantityField h, hbc]
    rw [rq10Bytes_eq]
    refine (readRequest_write unit _ _ _ _ _ hlen hqty).trans ?_
    rw [beToU16_hiByte_loByte, decodePairs_encodeU16Seq]

/-- Settles O15, which is the decoder's own law. -/
theorem decodedInstructionsAreWellFormed : Obligations.DecodedInstructionsAreWellFormed :=
  fun _ _ => decode_wellFormed

/-- Settles O16: a command or request row decodes by its code; a well-formed response row holds its function code at offset 1. -/
theorem decodeUndoesEncode : Obligations.DecodeUndoesEncode := by
  intro i h
  cases i with
  | rs03 inp unit =>
    obtain ⟨addr, rest, rfl⟩ := exists_cons_cons_of_getElem?_one (eq_of_beq h)
    exact decode_parser_cons addr 0x03#8 unit rest
  | rs10 inp unit =>
    obtain ⟨addr, rest, rfl⟩ := exists_cons_cons_of_getElem?_one (eq_of_beq h)
    exact decode_parser_cons addr 0x10#8 unit rest
  | rsUnsupported fc =>
    obtain ⟨h3, h16⟩ : fc ≠ 0x03#8 ∧ fc ≠ 0x10#8 := by simpa [Instr.wellFormed] using h
    rw [encode, decode_parser_cons, if_neg h3, if_neg h16]
  | _ => rfl

/-- Settles O18: the line's list reads back whole, and no number of it is wider than its port. -/
theorem notationStandsForTheCommand : Obligations.NotationStandsForTheCommand := by
  intro i line h
  have readWhole (ns : List Nat) : readList (listTokens ns) = some (ns, []) := by
    simpa using readList_listTokens ns []
  cases i with
  | crc16 inp | verifyCrc inp =>
    cases h
    simp [assemble, byteTokens, readWhole, toBytes_map_toNat, encode]
  | buildRead unit start qty =>
    cases h
    simp [assemble, trunc8_toNat, trunc16_toNat, encode]
  | buildWrite unit start values =>
    cases h
    simp [assemble, wordTokens, readWhole, toWords_map_toNat, trunc8_toNat, trunc16_toNat, encode]
  | parseResponse inp unit =>
    cases h
    simp [assemble, byteTokens, readList_listTokens, toBytes_map_toNat, trunc8_toNat, encode]
  | _ => cases h

/-- Settles O36: the frame is that of R62; its header, its values and its CRC field are read off in turn. -/
theorem writeRequestFieldsStandAtTheirOffsets : Obligations.WriteRequestFieldsStandAtTheirOffsets := by
  intro m s unit start values hm
  refine ⟨rq10Bytes unit start values, buildWriteWith_accepted (exceededLimit_eq_none hm) s unit start, ?_⟩
  have hfield {n : Nat} (hn : n < 7) := rq10Bytes_getElem?_header unit start values hn
  have hbody := length_writeBody unit start values
  obtain ⟨hlo, hhi⟩ := sealed_getElem?_crc (writeHeader unit start values.length ++ encodeU16Seq values)
  have htake := take_sealed (writeHeader unit start values.length ++ encodeU16Seq values)
  rw [hbody, ← rq10Bytes_eq] at hlo hhi htake
  refine ⟨?_, hfield (by decide), hfield (by decide), hfield (by decide), hfield (by decide), ?_, ?_, ?_,
    fun j v => rq10Bytes_getElem?_value unit start, ?_, ?_⟩
  · rw [rq10Bytes_eq, length_sealed, hbody]
    omega
  · simp [hfield, writeHeader, toNat_hiByte, quantityField]
  · simp [hfield, writeHeader, toNat_loByte, quantityField]
  · simp [hfield, writeHeader, byteCountField]
  · rw [htake, hlo]
  · rw [htake, ← hhi]
    congr 1
    omega

/-- Settles O38: a genuine frame has one of the two function codes. -/
theorem onlyTwoFunctionCodesAreBuilt : Obligations.OnlyTwoFunctionCodesAreBuilt := by
  intro i s t f h hf
  obtain ⟨-, -, hfc⟩ := exec_payload_genuine h hf
  exact hfc

/-- Settles O46: the device's frame is a sealed 0x03 frame whose data field is the encoding of the values. -/
theorem deviceValuesAreReadBack : Obligations.DeviceValuesAreReadBack := by
  intro unit values s h
  have hlen : (encodeU16Seq values).length = (byteCountField values.length).toNat := by
    rw [length_encodeU16Seq, toNat_byteCountField h]
  have htake : (encodeU16Seq values).take (2 * ((byteCountField values.length).toNat / 2)) = encodeU16Seq values :=
    List.take_of_length_le (by rw [hlen, toNat_byteCountField h]; omega)
  have harm := readArm_sealed (begin s) unit 0x03#8 (byteCountField values.length) hlen
  rw [htake, decodePairs_encodeU16Seq, complete_begin] at harm
  rw [rs03Bytes, flatMap_bytes_eq_encodeU16Seq, ← harm]
  exact exec_parseResponse_read unit unit _ s

/-- Settles O47: the device's frame is a sealed 0x10 frame whose fields are the bytes of the two values. -/
theorem deviceEchoIsReadBack : Obligations.DeviceEchoIsReadBack := by
  intro unit start qty s
  have harm := writeArm_sealed (begin s) unit 0x10#8 (hiByte start) (loByte start) (hiByte qty) (loByte qty)
  rw [beToU16_hiByte_loByte, beToU16_hiByte_loByte, complete_begin] at harm
  rw [rs10Bytes, ← harm]
  exact exec_parseResponse_write unit unit _ s

/-- Settles O48, arm by arm of the dispatch: an arm with a payload has accepted the frame. -/
theorem parserAcceptsOnlyValidFrames : Obligations.ParserAcceptsOnlyValidFrames := by
  intro inp unit s t p h hp
  match inp, h with
  | [], h | [_], h =>
    cases h
    cases hp
  | addr :: fc :: rest, h =>
    rw [exec_parseResponse_cons] at h
    split_ifs at h
    · cases h
      exact acceptedFrame_of_readArm hp
    · cases h
      exact acceptedFrame_of_writeArm hp
    · cases h
      cases hp

/-- Settles O49 with the equations of the two instructions. -/
theorem rq03IsTheReadRequestFrame : Obligations.Rq03IsTheReadRequestFrame :=
  fun unit start qty s => ⟨exec_rq03 unit start qty s, exec_buildRead unit start qty s, length_sealed _⟩

/-- Settles O50: both instructions run the same operation, which accepts up to 127 values whatever the parameter. -/
theorem rq10IsTheWriteRequestFrame : Obligations.Rq10IsTheWriteRequestFrame :=
  ⟨fun unit start _ s h => congrArg Host.Outcome.next (buildWriteWith_accepted (exceededLimit_small _ h) s unit start),
    fun _ _ _ _ => rfl⟩

/-- Settles O51: the decoder and the parser make the same comparisons. -/
theorem parseResponseTakesTheSelectedArm : Obligations.ParseResponseTakesTheSelectedArm := by
  intro inp unit s i h
  match inp, h with
  | addr :: fc :: rest, h =>
    rw [decode_parser_cons] at h
    cases h
    rw [exec_parseResponse_cons]
    split_ifs <;> rfl

/-- Settles O6: a reserved code is rejected with itself, and the rejection is answered. -/
theorem reservedCommandCodesAreIllegal : Obligations.ReservedCommandCodesAreIllegal := by
  intro s cmd ports rest hin hcode
  refine ⟨?_, rfl⟩
  rw [step_issue_error hin (decode_command_reserved hcode ports), answerReject_reservedCommand]

/-- Settles O12: each code selects its branch of the decoder. -/
theorem commandCodesSelectTheirOperations : Obligations.CommandCodesSelectTheirOperations :=
  fun _ => ⟨rfl, rfl, rfl, rfl, rfl⟩

/-- Settles O13: comparing the number of a code is comparing its 8 bits. -/
theorem functionCodeSelectsTheArm : Obligations.FunctionCodeSelectsTheArm := by
  intro addr fc unit rest
  have h3 : fc = 0x03#8 ↔ fc.toNat = 3 := BitVec.toNat_inj.symm
  have h16 : fc = 0x10#8 ↔ fc.toNat = 16 := BitVec.toNat_inj.symm
  simp only [decode_parser_cons, h3, h16]

/-- Settles O14 by evaluating the decoder on each word. -/
theorem tableWordsDecodeToTheirRows : Obligations.TableWordsDecodeToTheirRows := by
  refine ⟨?_, ?_, ?_, ?_, ?_, ?_, ?_⟩ <;> decide

end Sys2Proof.Machine
end

section
/-! SUPPORT. The marshaller family: the two byte orders as numbers, and what decoding a sequence reads, value by value. -/

namespace Sys2Proof.Machine

/-! ### The two byte orders -/

/-- R101 as the concatenation of the two bytes. -/
theorem beToU16_eq_append (hi lo : Byte) : beToU16 hi lo = hi ++ lo := by
  rw [BitVec.append_def, BitVec.shiftLeftZeroExtend_eq, BitVec.setWidth'_eq, beToU16]

/-- R101 as a number: the two bytes do not overlap, so their union is a sum. -/
theorem toNat_beToU16 (hi lo : Byte) : (beToU16 hi lo).toNat = 256 * hi.toNat + lo.toNat := by
  rw [beToU16_eq_append, BitVec.toNat_append, ← Nat.shiftLeft_add_eq_or_of_lt lo.isLt, Nat.shiftLeft_eq,
    Nat.mul_comm]

/-- R121 reads the bytes in the other order than R101. -/
theorem leToU16_eq_beToU16 (lo hi : Byte) : leToU16 lo hi = beToU16 hi lo := BitVec.or_comm ..

theorem hiByte_beToU16 (hi lo : Byte) : hiByte (beToU16 hi lo) = hi := by
  have hlo : lo.toNat < 256 := lo.isLt
  apply BitVec.eq_of_toNat_eq
  rw [toNat_hiByte, toNat_beToU16]
  omega

theorem loByte_beToU16 (hi lo : Byte) : loByte (beToU16 hi lo) = lo := by
  have hlo : lo.toNat < 256 := lo.isLt
  apply BitVec.eq_of_toNat_eq
  rw [toNat_loByte, toNat_beToU16]
  omega

/-! ### What decoding a sequence reads -/

/-- R13: byte `k` of a read is the byte at offset `off + k`. -/
theorem memRead_getElem? (s : List Byte) (off : Nat) {n k : Nat} (h : k < n) : (memRead s off n)[k]? = s[off + k]? := by
  rw [memRead, List.getElem?_take_of_lt h, List.getElem?_drop]

/-- R13: a read within its bound does not depend on the bytes behind it. -/
theorem memRead_take_append {s : List Byte} {off n : Nat} (h : off + n ≤ s.length) (tail : List Byte) :
    memRead (s.take (off + n) ++ tail) off n = memRead s off n := by
  have hlen : (s.take (off + n)).length = off + n := List.length_take_of_le h
  rw [memRead, List.drop_append_of_le_length (by omega), List.drop_take, Nat.add_sub_cancel_left,
    List.take_append_of_le_length (by simp; omega), List.take_take, Nat.min_self, memRead]

/-- R103: within its bound a decoded sequence has the number of values asked for. -/
theorem length_decodeU16Seq {s : List Byte} {off n : Nat} (h : off + 2 * n ≤ s.length) :
    (decodeU16Seq s off n).length = n := by
  induction n generalizing off with
  | zero => rfl
  | succ n ih =>
    obtain ⟨hi, lo, he⟩ := exists_memRead_two (inp := s) (off := off) (by omega)
    rw [decodeU16Seq_succ, he]
    exact congrArg (· + 1) (ih (by omega))

theorem decodePairs_getElem? {bs : List Byte} {j : Nat} {hi lo : Byte} (hhi : bs[2 * j]? = some hi)
    (hlo : bs[2 * j + 1]? = some lo) : (decodePairs bs)[j]? = some (beToU16 hi lo) := by
  induction bs using decodePairs.induct generalizing j with
  | case1 hi' lo' rest ih =>
    cases j with
    | zero =>
      cases hhi
      cases hlo
      rfl
    | succ j => exact ih hhi hlo
  | case2 bs hshort =>
    match bs, hlo with
    | hi' :: lo' :: rest, _ => exact absurd rfl (hshort hi' lo' rest)

/-- R103: value `j` is read from offsets `off + 2j` and `off + 2j + 1`. -/
theorem decodeU16Seq_getElem? {s : List Byte} {off n j : Nat} {hi lo : Byte} (hj : j < n)
    (hhi : s[off + 2 * j]? = some hi) (hlo : s[off + 2 * j + 1]? = some lo) :
    (decodeU16Seq s off n)[j]? = some (beToU16 hi lo) :=
  decodePairs_getElem? ((memRead_getElem? s off (by omega)).trans hhi) ((memRead_getElem? s off (by omega)).trans hlo)

/-- R104: decoding undoes encoding. -/
theorem decodeU16Seq_encodeU16Seq (vs : List Word) : decodeU16Seq (encodeU16Seq vs) 0 vs.length = vs := by
  have hread : memRead (encodeU16Seq vs) 0 (2 * vs.length) = encodeU16Seq vs :=
    List.take_of_length_le (length_encodeU16Seq vs).le
  rw [decodeU16Seq, hread, decodePairs_encodeU16Seq]

/-! ### The obligations -/

/-- Settles O20, from the round trips of a value, of its two bytes and of a sequence. -/
theorem marshallerRoundTrips : Obligations.MarshallerRoundTrips := by
  refine ⟨beToU16_hiByte_loByte, fun hi lo => ?_, decodeU16Seq_encodeU16Seq⟩
  rw [u16ToBe, hiByte_beToU16, loByte_beToU16]

/-- Settles O21, by the length of an encoding and the place of each value in it. -/
theorem encodedSequenceKeepsOrder : Obligations.EncodedSequenceKeepsOrder :=
  fun vs => ⟨length_encodeU16Seq vs, fun _ _ h => encodeU16Seq_getElem? h⟩

/-- Settles O22: decoding sees the bytes of one read only, and pairs them up in order. -/
theorem decodedSequenceReadsItsOffsets : Obligations.DecodedSequenceReadsItsOffsets :=
  fun _ _ _ h => ⟨length_decodeU16Seq h, fun _ _ _ hj hhi hlo => decodeU16Seq_getElem? hj hhi hlo,
    fun tail => congrArg decodePairs (memRead_take_append h tail)⟩

/-- Settles O19: both directions of both byte orders, as numbers. -/
theorem fieldsAreAssembledInTheirByteOrder : Obligations.FieldsAreAssembledInTheirByteOrder := by
  refine ⟨fun v => ?_, toNat_beToU16, fun c => ?_, fun bs lo hi => ⟨_, receivedCrc_append bs lo hi, ?_⟩⟩
  · simp only [u16ToBe, List.map_cons, List.map_nil, toNat_hiByte, toNat_loByte]
  · simp only [crcToLe, List.map_cons, List.map_nil, toNat_hiByte, toNat_loByte]
  · rw [leToU16_eq_beToU16, toNat_beToU16, Nat.add_comm]

end Sys2Proof.Machine
end

section
/-! SUPPORT. The CRC family. The bit step of R110 is linear over xor and only 0 goes to 0. So two bytes are one sixteen-bit step of
their little-endian word, a frame verifies exactly where its own CRC is 0, and a changed byte changes the CRC. -/

namespace Sys2Proof.Machine

/-! ### The bit step is linear and injective -/

theorem crcBit_xor (x y : Word) : crcBit (x ^^^ y) = crcBit x ^^^ crcBit y := by
  have hlow : (x ^^^ y).getLsbD 0 = (x.getLsbD 0 ^^ y.getLsbD 0) := BitVec.getLsbD_xor
  unfold crcBit
  rw [hlow, BitVec.ushiftRight_xor_distrib]
  cases x.getLsbD 0 <;> cases y.getLsbD 0
  case false.false => rfl
  case false.true => exact BitVec.xor_assoc ..
  case true.false =>
    change (x >>> 1) ^^^ (y >>> 1) ^^^ poly = (x >>> 1) ^^^ poly ^^^ (y >>> 1)
    ac_rfl
  case true.true =>
    calc (x >>> 1) ^^^ (y >>> 1)
      _ = (x >>> 1) ^^^ (y >>> 1) ^^^ (poly ^^^ poly) := by rw [BitVec.xor_self, BitVec.xor_zero]
      _ = (x >>> 1) ^^^ poly ^^^ ((y >>> 1) ^^^ poly) := by ac_rfl

/-- The polynomial's top bit (R110) shows in the result whether the low bit was set, and the shift keeps the other bits. -/
theorem crcBit_eq_zero {x : Word} (h : crcBit x = 0) : x = 0 := by
  unfold crcBit at h
  split at h
  case isTrue =>
    have htop : ((x >>> 1) ^^^ poly).getLsbD 15 = true := by simp [poly]
    rw [h] at htop
    cases htop
  case isFalse hlow =>
    have hbits := congrArg BitVec.toNat h
    have hodd : x.toNat % 2 ≠ 1 := by simpa [BitVec.getLsbD, Nat.testBit_zero] using hlow
    apply BitVec.eq_of_toNat_eq
    simp [Nat.shiftRight_eq_div_pow] at hbits ⊢
    omega

theorem crcBits_xor (n : Nat) (x y : Word) : crcBits n (x ^^^ y) = crcBits n x ^^^ crcBits n y := by
  induction n generalizing x y with
  | zero => rfl
  | succ n ih => rw [crcBits, crcBit_xor, ih, crcBits, crcBits]

theorem crcBits_eq_zero {n : Nat} {x : Word} : crcBits n x = 0 ↔ x = 0 := by
  constructor
  · intro h
    induction n generalizing x with
    | zero => exact h
    | succ n ih => exact crcBit_eq_zero (ih h)
  · rintro rfl
    induction n with
    | zero => rfl
    | succ n ih => exact ih

theorem crcBits_injective (n : Nat) : Function.Injective (crcBits n) := by
  intro x y h
  exact BitVec.xor_eq_zero_iff.1 (crcBits_eq_zero.1 ((crcBits_xor n x y).trans (BitVec.xor_eq_zero_iff.2 h)))

theorem crcBits_add (m n : Nat) (x : Word) : crcBits (m + n) x = crcBits n (crcBits m x) := by
  induction m generalizing x with
  | zero => rw [Nat.zero_add, crcBits]
  | succ m ih => rw [Nat.succ_add, crcBits, ih, crcBits]

/-- Low bits that are clear are only shifted out: the polynomial is not applied. -/
theorem crcBits_of_low_clear {n : Nat} {x : Word} (h : ∀ i < n, x.getLsbD i = false) : crcBits n x = x >>> n := by
  induction n generalizing x with
  | zero => rw [crcBits, BitVec.ushiftRight_zero]
  | succ n ih =>
    have hbit : crcBit x = x >>> 1 := if_neg (by rw [h 0 n.succ_pos]; exact Bool.false_ne_true)
    rw [crcBits, hbit, ih fun i hi => by rw [BitVec.getLsbD_ushiftRight]; exact h _ (by omega), ← BitVec.shiftRight_add,
      Nat.add_comm]

/-! ### The byte step -/

theorem leToU16_eq_xor (lo hi : Byte) : leToU16 lo hi = lo.setWidth 16 ^^^ (hi.setWidth 16 <<< 8) := by
  unfold leToU16
  ext i hi16
  by_cases hlow : i < 8
  · simp [hlow]
  · simp [hlow, BitVec.getLsbD_of_ge lo i (by omega)]

theorem shiftLeft_shiftRight_byte (hi : Byte) : (hi.setWidth 16 <<< 8) >>> 8 = hi.setWidth 16 := by
  apply BitVec.eq_of_toNat_eq
  simp [Nat.shiftRight_eq_div_pow, Nat.shiftLeft_eq]
  omega

/-- Eight bit steps move a high byte down. -/
theorem crcBits_highByte (hi : Byte) : crcBits 8 (hi.setWidth 16 <<< 8) = hi.setWidth 16 := by
  rw [crcBits_of_low_clear fun i hlow => by simp [hlow], shiftLeft_shiftRight_byte]

theorem shiftRight_eq_hiByte (acc : Word) : acc >>> 8 = (hiByte acc).setWidth 16 := by
  apply BitVec.eq_of_toNat_eq
  simp [toNat_hiByte, Nat.shiftRight_eq_div_pow]
  omega

theorem crcStep_injective (b : Byte) : Function.Injective (crcStep · b) :=
  fun _ _ h => (BitVec.xor_left_inj _).1 (crcBits_injective 8 h)

theorem crcStep_byte_injective (acc : Word) : Function.Injective (crcStep acc) := by
  intro b b' h
  have hword : b.setWidth 16 = b'.setWidth 16 := (BitVec.xor_right_inj _).1 (crcBits_injective 8 h)
  simpa using congrArg (BitVec.setWidth 8) hword

/-- Two byte steps are sixteen bit steps on the accumulator xor the bytes' little-endian word: the high byte may be applied before
the first eight steps, which only shift it. -/
theorem crcStep_crcStep (acc : Word) (lo hi : Byte) :
    crcStep (crcStep acc lo) hi = crcBits 16 (acc ^^^ leToU16 lo hi) :=
  calc crcStep (crcStep acc lo) hi
    _ = crcBits 8 (crcBits 8 (acc ^^^ lo.setWidth 16) ^^^ crcBits 8 (hi.setWidth 16 <<< 8)) := by
      rw [crcBits_highByte, crcStep, crcStep]
    _ = crcBits (8 + 8) (acc ^^^ leToU16 lo hi) := by
      rw [← crcBits_xor, ← crcBits_add, BitVec.xor_assoc, leToU16_eq_xor]

/-! ### The CRC of a frame with its checksum, and of a frame with a changed byte -/

/-- R114 (d), both ways: the CRC is 0 exactly where the last two bytes are the checksum of the others. -/
theorem crc16_append_eq_zero (bs : List Byte) (lo hi : Byte) :
    crc16 (bs ++ [lo, hi]) = 0 ↔ leToU16 lo hi = crc16 bs := by
  have hsteps : crc16 (bs ++ [lo, hi]) = crcBits 16 (crc16 bs ^^^ leToU16 lo hi) := by
    rw [← crcStep_crcStep, crc16, List.foldl_append]
    rfl
  rw [hsteps, crcBits_eq_zero, eq_comm (a := leToU16 lo hi)]
  exact BitVec.xor_eq_zero_iff

/-- R122 by the residue: a frame with a checksum verifies exactly where its own CRC is 0. -/
theorem verifyCrc_eq_residue {frame : List Byte} (h : 2 ≤ frame.length) : verifyCrc frame = some (crc16 frame == 0) := by
  obtain ⟨bs, lo, hi, rfl⟩ := exists_body_append frame h
  rw [verifyCrc, receivedCrc_append, body_append]
  exact congrArg some (Bool.eq_iff_iff.2 (by simpa using (crc16_append_eq_zero bs lo hi).symm))

theorem two_le_length_of_verifyCrc {frame : List Byte} {v : Bool} (h : verifyCrc frame = some v) : 2 ≤ frame.length := by
  by_contra hshort
  rw [verifyCrc, (receivedCrc_eq_none frame).2 (by omega)] at h
  cases h

theorem foldl_crcStep_injective (bs : List Byte) : Function.Injective fun acc => bs.foldl crcStep acc := by
  induction bs with
  | nil => exact Function.injective_id
  | cons b bs ih => exact ih.comp (crcStep_injective b)

/-- The changed byte makes the accumulators differ, and the bytes after it keep them apart. -/
theorem foldl_crcStep_modify_ne {f : Byte → Byte} (hf : ∀ b, f b ≠ b) {bs : List Byte} {i : Nat} (h : i < bs.length)
    (acc : Word) : (bs.modify i f).foldl crcStep acc ≠ bs.foldl crcStep acc := by
  induction bs generalizing i acc with
  | nil => cases h
  | cons b bs ih =>
    cases i with
    | zero => exact fun he => hf b (crcStep_byte_injective acc (foldl_crcStep_injective bs he))
    | succ i => exact ih (Nat.lt_of_succ_lt_succ h) (crcStep acc b)

theorem xor_bit_ne (b : Byte) (n : Nat) : b ^^^ (1#8 <<< (n % 8)) ≠ b := by
  intro h
  have hbit := congrArg (BitVec.getLsbD · (n % 8)) h
  simp [Nat.mod_lt] at hbit

theorem crc16_flipBit_ne {frame : List Byte} {n : Nat} (h : n < 8 * frame.length) :
    crc16 (flipBit frame n) ≠ crc16 frame :=
  foldl_crcStep_modify_ne (fun b => xor_bit_ne b n) (by omega) seed

/-! ### The obligations -/

/-- Settles O24: the accumulator is split into its high byte, which the steps shift down, and its low byte. -/
theorem bitwiseStepIsTheTableMethod : Obligations.BitwiseStepIsTheTableMethod := by
  intro acc b
  have hsplit : acc ^^^ b.setWidth 16 = (hiByte acc).setWidth 16 <<< 8 ^^^ (loByte acc ^^^ b).setWidth 16 := by
    conv_lhs => rw [← leToU16_crcToLe acc, leToU16_eq_xor]
    rw [BitVec.setWidth_xor]
    ac_rfl
  rw [crcStep, hsplit, crcBits_xor, crcBits_highByte, shiftRight_eq_hiByte, crcStep]
  exact congrArg _ (congrArg (crcBits 8) BitVec.xor_zero.symm)

/-- Settles O27: the body and its CRC are the sealed body. -/
theorem sealedBodyVerifies : Obligations.SealedBodyVerifies := verifyCrc_sealed

/-- Settles O29: the CRC field read back is the CRC of the body. -/
theorem residueIsZero : Obligations.ResidueIsZero :=
  fun bs => (crc16_append_eq_zero bs _ _).2 (leToU16_crcToLe (crc16 bs))

/-- Settles O28: the flipped frame's CRC differs from the valid frame's, which is 0. -/
theorem singleBitFlipIsDetected : Obligations.SingleBitFlipIsDetected := by
  intro frame n hvalid hn
  have hlen : 2 ≤ frame.length := two_le_length_of_verifyCrc hvalid
  have hzero : crc16 frame = 0 := by simpa [verifyCrc_eq_residue hlen] using hvalid
  have hflip : crc16 (flipBit frame n) ≠ 0 := hzero ▸ crc16_flipBit_ne hn
  have hlenFlip : 2 ≤ (flipBit frame n).length := by rwa [flipBit, List.length_modify]
  rw [verifyCrc_eq_residue hlenFlip, beq_false_of_ne hflip]

/-- Settles O30: the command's loop, from the state it begins with, leaves the CRC in the accumulator. -/
theorem crc16ReturnsTheCrc : Obligations.Crc16ReturnsTheCrc := exec_crc16

end Sys2Proof.Machine
end

section
/-! SUPPORT. The frame verifier's command on a frame with a checksum field. -/

namespace Sys2Proof.Machine

/-- R122, R123 on a body and its checksum field. -/
theorem exec_verifyCrc_append (bs : List Byte) (lo hi : Byte) (s : State) :
    exec (.verifyCrc (bs ++ [lo, hi])) s = .next (complete s (.ok (.matched (leToU16 lo hi == crc16 bs)))) := by
  rw [exec_verifyCrc_some (receivedCrc_append bs lo hi), body_append]

/-- Settles O31: an input below two bytes has no checksum field; any other is a body and its last two bytes. -/
theorem verifyReturnsTheComparison : Obligations.VerifyReturnsTheComparison := by
  refine ⟨fun inp s hshort => exec_verifyCrc_none ((receivedCrc_eq_none inp).2 hshort) s, fun inp s hlen => ?_⟩
  obtain ⟨bs, lo, hi, rfl⟩ := exists_body_append inp hlen
  have hbody : (bs ++ [lo, hi]).length - 2 = bs.length := by simp
  have hhigh : (bs ++ [lo, hi]).length - 1 = bs.length + 1 := by simp
  have hlo : (bs ++ [lo, hi]).getD bs.length 0 = lo := by simp
  have hhi : (bs ++ [lo, hi]).getD (bs.length + 1) 0 = hi := by simp
  rw [hbody, hhigh, hlo, hhi, List.take_left]
  exact exec_verifyCrc_append bs lo hi s

end Sys2Proof.Machine
end

section
/-! SUPPORT. The request builder's family: what a write of too many values answers, and which frames the two builders return. -/

namespace Sys2Proof.Machine

/-! ### A write request under the parameter -/

/-- R132: a count above the parameter's bound raises QuantityOutOfRange (`buildWriteWith_accepted` is the other case). -/
theorem buildWriteWith_rejected {m : WriteMax} {values : List Word} {limit : Nat} (hm : m.limit = some limit)
    (hlt : limit < values.length) (s : State) (unit : Byte) (start : Word) :
    buildWriteWith m (begin s) unit start values =
      complete s (.error (.quantityOutOfRange values.length limit)) := by
  rw [buildWriteWith_eq, (exceededLimit_eq_some m values.length limit).2 ⟨hm, hlt⟩]

theorem exec_buildWrite (unit : Byte) (start : Word) (values : List Word) (s : State) :
    exec (.buildWrite unit start values) s = .next (buildWriteWith Config.pWriteMax (begin s) unit start values) := rfl

/-! ### The frames the builders return -/

/-- R62: seven bytes before the values, two a value, two for the CRC. -/
theorem length_rq10Bytes (unit : Byte) (start : Word) (values : List Word) :
    (rq10Bytes unit start values).length = 9 + 2 * values.length := by
  rw [rq10Bytes_eq, length_sealed, length_writeBody]
  omega

theorem verifyCrc_rq10Bytes (unit : Byte) (start : Word) (values : List Word) :
    verifyCrc (rq10Bytes unit start values) = some true := by
  rw [rq10Bytes_eq]
  exact verifyCrc_sealed _

theorem eq_rq03Bytes_of_exec_buildRead {unit : Byte} {start qty : Word} {s t : State} {f : List Byte}
    (h : exec (.buildRead unit start qty) s = .next t) (hf : t.result = some (.ok (.frame f))) :
    f = rq03Bytes unit start qty := by
  cases (exec_buildRead unit start qty s).symm.trans h
  cases hf
  rfl

/-- A count that exceeds a limit returns no frame, so a frame is that of R62. -/
theorem eq_rq10Bytes_of_exec_buildWrite {unit : Byte} {start : Word} {values : List Word} {s t : State} {f : List Byte}
    (h : exec (.buildWrite unit start values) s = .next t) (hf : t.result = some (.ok (.frame f))) :
    f = rq10Bytes unit start values := by
  cases h
  cases hl : exceededLimit Config.pWriteMax values.length with
  | some limit =>
    obtain ⟨hm, hlt⟩ := (exceededLimit_eq_some _ _ _).1 hl
    rw [buildWriteWith_rejected hm hlt] at hf
    cases hf
  | none =>
    rw [buildWriteWith_accepted hl] at hf
    cases hf
    rfl

/-! ### The obligations -/

/-- Settles O32: the frame of the row RQ03 is its six fields and the two bytes of their CRC. -/
theorem buildReadReturnsTheRequest : Obligations.BuildReadReturnsTheRequest := exec_buildRead

/-- Settles O33, by the bound of the parameter and then by the count. -/
theorem buildWriteReturnsTheRequestOrTheLimit : Obligations.BuildWriteReturnsTheRequestOrTheLimit := by
  intro unit start values s
  rw [exec_buildWrite]
  congr 1
  cases hm : Config.pWriteMax.limit with
  | none => exact buildWriteWith_accepted (exceededLimit_eq_none (by simp [hm])) s unit start
  | some limit =>
    by_cases hlt : limit < values.length
    · simp only [if_pos hlt]
      exact buildWriteWith_rejected hm hlt s unit start
    · simp only [if_neg hlt]
      exact buildWriteWith_accepted (exceededLimit_eq_none (by simpa [hm] using hlt)) s unit start

/-- Settles O34 with the equation of a rejected count. -/
theorem countAboveTheBoundIsOutOfRange : Obligations.CountAboveTheBoundIsOutOfRange :=
  fun _ s unit start _ _ hm hlt => buildWriteWith_rejected hm hlt s unit start

/-- Settles O35: up to 127 values exceed no limit, whatever the parameter. -/
theorem smallWritesAlwaysComplete : Obligations.SmallWritesAlwaysComplete := by
  intro unit start values s hlen
  rw [exec_buildWrite, buildWriteWith_accepted (exceededLimit_small _ hlen)]

/-- Settles O37: the returned frame is that of R61 or R62, each a sealed body with the unit and the function code in front. -/
theorem builtFramesObeyTheBuilderLaws : Obligations.BuiltFramesObeyTheBuilderLaws := by
  refine ⟨fun unit start qty s t f h hf => ?_, fun unit start values s t f h hf => ?_⟩
  · obtain rfl := eq_rq03Bytes_of_exec_buildRead h hf
    exact ⟨verifyCrc_sealed _, length_sealed _, rfl, rfl⟩
  · obtain rfl := eq_rq10Bytes_of_exec_buildWrite h hf
    exact ⟨verifyCrc_rq10Bytes unit start values, length_rq10Bytes unit start values,
      rq10Bytes_getElem?_header unit start values (by decide), rq10Bytes_getElem?_header unit start values (by decide)⟩

end Sys2Proof.Machine
end

section
/-! SUPPORT. The response parser's family: the checksum and unit checks as one response, what each arm answers behind its length
check, and the pseudocode of R150 on the same frames. -/

namespace Sys2Proof.Machine

/-! ### The checks behind a length check -/

/-- R154, R155, R161: the response of an arm behind its length check, where `p` is the arm's payload. -/
def checkedResponse (received computed : Word) (actual unit : Byte) (p : Payload) : Response :=
  if received ≠ computed then .error (.checksumMismatch received computed)
  else if actual ≠ unit then .error (.unitMismatch actual unit)
  else .ok p

theorem checkedResponse_wrongChecksum {received computed : Word} (h : received ≠ computed) (actual unit : Byte)
    (p : Payload) :
    checkedResponse received computed actual unit p = .error (.checksumMismatch received computed) := if_pos h

theorem checkedResponse_wrongUnit {actual unit : Byte} (h : actual ≠ unit) (crc : Word) (p : Payload) :
    checkedResponse crc crc actual unit p = .error (.unitMismatch actual unit) :=
  (if_neg (not_not.2 rfl)).trans (if_pos h)

theorem complete_checkedResponse (s : State) (received computed : Word) (actual unit : Byte) (p : Payload) :
    complete s (checkedResponse received computed actual unit p) =
      if received ≠ computed then complete s (.error (.checksumMismatch received computed))
      else if actual ≠ unit then complete s (.error (.unitMismatch actual unit))
      else complete s (.ok p) := by
  simp only [checkedResponse, apply_ite (complete s)]

/-! ### What the parser's rows answer -/

theorem exec_rsUnsupported (fc : Byte) (s : State) :
    exec (.rsUnsupported fc) s = .next (complete s (.error (.unsupportedFunctionCode fc))) := rfl

/-- R160 on the whole frame. -/
theorem exec_parseResponse_unsupported {fc : Byte} (h3 : fc ≠ 0x03#8) (h16 : fc ≠ 0x10#8) (addr unit : Byte)
    (rest : List Byte) (s : State) :
    exec (.parseResponse (addr :: fc :: rest) unit) s = .next (complete s (.error (.unsupportedFunctionCode fc))) := by
  rw [exec_parseResponse_cons, if_neg h3, if_neg h16, exec_rsUnsupported]

/-- R153: a 0x03 response that ends before its byte count. -/
theorem exec_parseResponse_read_short (addr unit : Byte) (s : State) :
    exec (.parseResponse [addr, 0x03#8] unit) s = .next (complete s (.error (.malformedLength 2 none))) :=
  congrArg Host.Outcome.next (readArm_short (begin s) [addr, 0x03#8] unit (by simp))

theorem exec_parseResponse_read_length {bc : Byte} {rest : List Byte} (h : rest.length ≠ bc.toNat + 2) (addr unit : Byte)
    (s : State) :
    exec (.parseResponse (addr :: 0x03#8 :: bc :: rest) unit) s =
      .next (complete s (.error (.malformedLength (rest.length + 3) (some (bc.toNat + 5))))) := by
  rw [exec_parseResponse_read, readArm_length _ _ _ _ _ _ h, complete_begin]

theorem exec_parseResponse_write_length {rest : List Byte} (h : rest.length + 2 ≠ 8) (addr unit : Byte) (s : State) :
    exec (.parseResponse (addr :: 0x10#8 :: rest) unit) s =
      .next (complete s (.error (.malformedLength (rest.length + 2) (some 8)))) :=
  congrArg Host.Outcome.next (writeArm_length (begin s) (addr :: 0x10#8 :: rest) unit h)

/-- R154 to R157: a 0x03 response of the right length. -/
theorem exec_parseResponse_read_append {bc : Byte} {data : List Byte} (h : data.length = bc.toNat) (addr lo hi unit : Byte)
    (s : State) :
    exec (.parseResponse (addr :: 0x03#8 :: bc :: (data ++ [lo, hi])) unit) s =
      .next (complete s (checkedResponse (leToU16 lo hi) (crc16 (addr :: 0x03#8 :: bc :: data)) addr unit
        (.readResult (decodeU16Seq (addr :: 0x03#8 :: bc :: (data ++ [lo, hi])) 3 (bc.toNat / 2))))) := by
  rw [exec_parseResponse_read, ← complete_begin, complete_checkedResponse]
  exact congrArg Host.Outcome.next (readArm_append (begin s) addr 0x03#8 bc data lo hi unit h)

/-- R158: a 0x10 response of 8 bytes. -/
theorem exec_parseResponse_write_append (addr sh sl qh ql lo hi unit : Byte) (s : State) :
    exec (.parseResponse [addr, 0x10#8, sh, sl, qh, ql, lo, hi] unit) s =
      .next (complete s (checkedResponse (leToU16 lo hi) (crc16 [addr, 0x10#8, sh, sl, qh, ql]) addr unit
        (.writeResult (beToU16 sh sl) (beToU16 qh ql)))) := by
  rw [exec_parseResponse_write, writeArm_append, ← complete_checkedResponse, complete_begin]

/-! ### The values of a 0x03 response -/

/-- R103, R156: within its bound a decoded sequence is its values, offset by offset. -/
theorem decodeU16Seq_eq_map_range {inp : List Byte} {off n : Nat} (h : off + 2 * n ≤ inp.length) :
    decodeU16Seq inp off n =
      (List.range n).map fun j => beToU16 (inp.getD (off + 2 * j) 0) (inp.getD (off + 2 * j + 1) 0) := by
  refine List.ext_getElem? fun j => ?_
  by_cases hj : j < n
  · have hbyte {k : Nat} (hk : k < inp.length) : inp[k]? = some (inp.getD k 0) := by
      rw [List.getD_eq_getElem _ _ hk, List.getElem?_eq_getElem hk]
    rw [decodeU16Seq_getElem? hj (hbyte (by omega)) (hbyte (by omega))]
    simp [hj]
  · have hlen := length_decodeU16Seq_le inp off n
    rw [List.getElem?_eq_none (by omega), List.getElem?_eq_none (by simp; omega)]

/-- R152, R156, R157: the row RS03 on a valid frame. An odd last byte of the data is beyond the values. -/
theorem exec_rs03_sealed {bc : Byte} {data : List Byte} (h : data.length = bc.toNat) (unit : Byte) (s : State) :
    exec (.rs03 (sealed (unit :: 0x03#8 :: bc :: data)) unit) s =
      .next (complete s (.ok (.readResult ((List.range (bc.toNat / 2)).map fun j =>
        beToU16 (data.getD (2 * j) 0) (data.getD (2 * j + 1) 0))))) := by
  have hvalues := decodeU16Seq_eq_map_range (inp := data) (off := 0) (n := bc.toNat / 2) (by omega)
  simp only [Nat.zero_add] at hvalues
  rw [← hvalues]
  exact congrArg Host.Outcome.next (readArm_sealed (begin s) unit 0x03#8 bc h)

/-! ### The pseudocode of R150 -/

theorem parsePseudocode_short {inp : List Byte} (h : inp.length < 2) (unit : Byte) :
    parsePseudocode inp unit = .error (.malformedLength inp.length none) := if_pos h

theorem parsePseudocode_unsupported {fc : Byte} (h3 : fc ≠ 0x03#8) (h16 : fc ≠ 0x10#8) (addr unit : Byte)
    (rest : List Byte) :
    parsePseudocode (addr :: fc :: rest) unit = .error (.unsupportedFunctionCode fc) := by
  simp [parsePseudocode, h3, h16]

theorem parsePseudocode_read_short (addr unit : Byte) :
    parsePseudocode [addr, 0x03#8] unit = .error (.malformedLength 2 none) := rfl

theorem parsePseudocode_read_length {bc : Byte} {rest : List Byte} (h : rest.length ≠ bc.toNat + 2) (addr unit : Byte) :
    parsePseudocode (addr :: 0x03#8 :: bc :: rest) unit =
      .error (.malformedLength (rest.length + 3) (some (bc.toNat + 5))) := by
  simp [parsePseudocode, h]

theorem parsePseudocode_write_length {rest : List Byte} (h : rest.length + 2 ≠ 8) (addr unit : Byte) :
    parsePseudocode (addr :: 0x10#8 :: rest) unit = .error (.malformedLength (rest.length + 2) (some 8)) := by
  have hlen : rest.length ≠ 6 := by omega
  simp [parsePseudocode, hlen]

theorem parsePseudocode_read_append {bc : Byte} {data : List Byte} (h : data.length = bc.toNat) (addr lo hi unit : Byte) :
    parsePseudocode (addr :: 0x03#8 :: bc :: (data ++ [lo, hi])) unit =
      checkedResponse (leToU16 lo hi) (crc16 (addr :: 0x03#8 :: bc :: data)) addr unit
        (.readResult (decodeU16Seq (addr :: 0x03#8 :: bc :: (data ++ [lo, hi])) 3 (bc.toNat / 2))) := by
  rw [decodeU16Seq_eq_map_range (by simp; omega)]
  simp [parsePseudocode, checkedResponse, h]

theorem parsePseudocode_write_append (addr sh sl qh ql lo hi unit : Byte) :
    parsePseudocode [addr, 0x10#8, sh, sl, qh, ql, lo, hi] unit =
      checkedResponse (leToU16 lo hi) (crc16 [addr, 0x10#8, sh, sl, qh, ql]) addr unit
        (.writeResult (beToU16 sh sl) (beToU16 qh ql)) := rfl

/-- The 0x03 arm follows the pseudocode: no byte count, a wrong length, or a body and its checksum (R152 to R157). -/
theorem exec_parseResponse_read_eq_pseudocode (addr unit : Byte) (rest : List Byte) (s : State) :
    exec (.parseResponse (addr :: 0x03#8 :: rest) unit) s =
      .next (complete s (parsePseudocode (addr :: 0x03#8 :: rest) unit)) := by
  match rest with
  | [] => rw [exec_parseResponse_read_short, parsePseudocode_read_short]
  | bc :: rest =>
    by_cases hlen : rest.length = bc.toNat + 2
    · obtain ⟨data, lo, hi, rfl⟩ := exists_body_append rest (by omega)
      have hdata : data.length = bc.toNat := by simpa using hlen
      rw [exec_parseResponse_read_append hdata, parsePseudocode_read_append hdata]
    · rw [exec_parseResponse_read_length hlen, parsePseudocode_read_length hlen]

/-- The 0x10 arm follows the pseudocode: a wrong length, or 8 bytes (R158). -/
theorem exec_parseResponse_write_eq_pseudocode (addr unit : Byte) (rest : List Byte) (s : State) :
    exec (.parseResponse (addr :: 0x10#8 :: rest) unit) s =
      .next (complete s (parsePseudocode (addr :: 0x10#8 :: rest) unit)) := by
  by_cases hlen : rest.length + 2 = 8
  · match rest, hlen with
    | [sh, sl, qh, ql, lo, hi], _ => rw [exec_parseResponse_write_append, parsePseudocode_write_append]
  · rw [exec_parseResponse_write_length hlen, parsePseudocode_write_length hlen]

/-! ### The obligations -/

/-- Settles O39: no function code, or the arm the function code selects, each of which follows the pseudocode. -/
theorem parseResponseFollowsItsPseudocode : Obligations.ParseResponseFollowsItsPseudocode := by
  intro inp unit s
  match inp with
  | [] | [_] => rw [exec_parseResponse_short (by simp), parsePseudocode_short (by simp)]
  | addr :: fc :: rest =>
    by_cases h3 : fc = 0x03#8
    · subst h3
      exact exec_parseResponse_read_eq_pseudocode addr unit rest s
    · by_cases h16 : fc = 0x10#8
      · subst h16
        exact exec_parseResponse_write_eq_pseudocode addr unit rest s
      · rw [exec_parseResponse_unsupported h3 h16, parsePseudocode_unsupported h3 h16]

/-- Settles O42 with the equation of each length that is wrong. -/
theorem responseLengthIsCheckedFirst : Obligations.ResponseLengthIsCheckedFirst :=
  ⟨exec_parseResponse_read_short,
    fun addr _ unit _ s h => exec_parseResponse_read_length (by omega) addr unit s,
    fun addr unit _ s h => exec_parseResponse_write_length h addr unit s⟩

/-- Settles O43: a frame of the right length goes to the checks, of which the checksum's is the first. -/
theorem wrongChecksumIsReported : Obligations.WrongChecksumIsReported := by
  refine ⟨fun addr bc lo hi unit data s hlen hcrc => ?_, fun addr sh sl qh ql lo hi unit s hcrc => ?_⟩
  · rw [exec_parseResponse_read_append hlen, checkedResponse_wrongChecksum hcrc]
  · rw [exec_parseResponse_write_append, checkedResponse_wrongChecksum hcrc]

/-- Settles O44: a sealed frame passes the checksum check and fails the unit's; the order of the two is O43's. -/
theorem wrongUnitIsReported : Obligations.WrongUnitIsReported := by
  obtain ⟨hread, hwrite⟩ := wrongChecksumIsReported
  refine ⟨fun addr bc unit data s hlen hunit => ?_, fun addr sh sl qh ql unit s hunit => ?_,
    fun addr bc lo hi unit data s hlen _ => hread addr bc lo hi unit data s hlen,
    fun addr sh sl qh ql lo hi unit s _ => hwrite addr sh sl qh ql lo hi unit s⟩
  · refine (exec_parseResponse_read_append hlen addr _ _ unit s).trans ?_
    rw [leToU16_crcToLe, checkedResponse_wrongUnit hunit]
  · refine (exec_parseResponse_write_append addr sh sl qh ql _ _ unit s).trans ?_
    rw [leToU16_crcToLe, checkedResponse_wrongUnit hunit]

/-- Settles O52 with the equation of the row. -/
theorem rs03ReturnsTheValues : Obligations.Rs03ReturnsTheValues :=
  fun unit _ _ s hlen => exec_rs03_sealed hlen unit s

/-- Settles O45: the frame's function code selects the row RS03. -/
theorem validReadResponseIsDecoded : Obligations.ValidReadResponseIsDecoded :=
  fun unit _ _ s hlen => (parseResponseTakesTheSelectedArm _ unit s _ rfl).trans (exec_rs03_sealed hlen unit s)

/-- Settles O53: the device's frame selects the row RS10, so the row answers what the parser does. -/
theorem rs10ReturnsTheEcho : Obligations.Rs10ReturnsTheEcho :=
  fun unit start qty s => (parseResponseTakesTheSelectedArm _ unit s _ rfl).symm.trans (deviceEchoIsReadBack unit start qty s)

/-- Settles O40 with the parser's equation for such an input. -/
theorem parseRejectsInputsWithoutAFunctionCode : Obligations.ParseRejectsInputsWithoutAFunctionCode :=
  fun _ unit s h => exec_parseResponse_short h unit s

/-- Settles O41: the dispatch selects the row RS_UNSUPPORTED_FUNCTION, which makes no check. -/
theorem otherFunctionCodesAreUnsupported : Obligations.OtherFunctionCodesAreUnsupported :=
  fun addr _ unit rest s h3 h16 => exec_parseResponse_unsupported h3 h16 addr unit rest s

/-- Settles O54 with the row's equation. -/
theorem rsUnsupportedReportsTheCode : Obligations.RsUnsupportedReportsTheCode := exec_rsUnsupported

end Sys2Proof.Machine
end

section
/-! SUPPORT. The exceptions family: which errors and payloads each instruction may answer with (R202, R22), and the status codes (R200). -/

namespace Sys2Proof.Machine

/-! ### The status codes -/

/-- R200 has no code above 6. -/
theorem toNat_statusOf_lt (r : Response) : (statusOf r).toNat < 7 := by
  cases r with
  | ok p => simp [statusOf]
  | error e => cases e <;> simp [statusOf, errorStatus]

/-! ### The parser's rows -/

/-- R154, R155: an arm that may raise both mismatches and return its payload may answer however its checks go. -/
theorem mayAnswer_checkedResponse {i : Instr} {received computed : Word} {actual unit : Byte} {p : Payload}
    (hchecksum : mayRaise i (.checksumMismatch received computed) = true)
    (hunit : mayRaise i (.unitMismatch actual unit) = true) (hp : mayReturn i p = true) :
    mayAnswer i (checkedResponse received computed actual unit p) = true := by
  rw [checkedResponse]
  split_ifs
  · exact hchecksum
  · exact hunit
  · exact hp

theorem readArm_mayAnswer (s : State) (inp : List Byte) (unit : Byte) :
    ∃ r, readArm s inp unit = complete s r ∧ mayAnswer (.rs03 inp unit) r = true := by
  match inp with
  | [] | [_] | [_, _] => exact ⟨_, readArm_short s _ unit (by simp), rfl⟩
  | b₀ :: b₁ :: bc :: rest =>
    by_cases hlen : rest.length = bc.toNat + 2
    · obtain ⟨data, lo, hi, rfl⟩ := exists_body_append rest (by omega)
      have happ := readArm_append s b₀ b₁ bc data lo hi unit (by simpa using hlen)
      exact ⟨_, happ.trans (complete_checkedResponse ..).symm, mayAnswer_checkedResponse rfl rfl rfl⟩
    · exact ⟨_, readArm_length s b₀ b₁ bc rest unit hlen, rfl⟩

theorem writeArm_mayAnswer (s : State) (inp : List Byte) (unit : Byte) :
    ∃ r, writeArm s inp unit = complete s r ∧ mayAnswer (.rs10 inp unit) r = true := by
  by_cases hlen : inp.length = 8
  · match inp, hlen with
    | [b₀, b₁, sh, sl, qh, ql, lo, hi], _ =>
      have happ := writeArm_append s b₀ b₁ sh sl qh ql lo hi unit
      exact ⟨_, happ.trans (complete_checkedResponse ..).symm, mayAnswer_checkedResponse rfl rfl rfl⟩
  · exact ⟨_, writeArm_length s inp unit hlen, rfl⟩

/-- R152, R158: what a response row may answer, PARSE_RESPONSE may. -/
theorem mayAnswer_parseResponse_of_row {inp : List Byte} {unit : Byte} {r : Response}
    (h : mayAnswer (.rs03 inp unit) r = true ∨ mayAnswer (.rs10 inp unit) r = true) :
    mayAnswer (.parseResponse inp unit) r = true := by
  cases r with
  | ok p =>
    cases p with
    | readResult | writeResult => rfl
    | _ => simp [mayAnswer, mayReturn] at h
  | error e =>
    cases e with
    | malformedLength | checksumMismatch | unitMismatch => rfl
    | _ => simp [mayAnswer, mayRaise] at h

/-! ### The builder's rows -/

/-- R9, R132: a parameter with a bound is not UNBOUNDED. -/
theorem bne_unbounded_of_limit {m : WriteMax} {limit : Nat} (h : m.limit = some limit) : (m != .unbounded) = true := by
  cases m with
  | unbounded => cases h
  | max65535 | max127 => rfl

theorem exec_buildWrite_mayAnswer (unit : Byte) (start : Word) (values : List Word) (s : State) :
    ∃ r, exec (.buildWrite unit start values) s = .next (complete s r) ∧
      mayAnswer (.buildWrite unit start values) r = true := by
  rw [exec_buildWrite]
  cases hl : exceededLimit Config.pWriteMax values.length with
  | some limit =>
    obtain ⟨hm, hlt⟩ := (exceededLimit_eq_some _ _ _).1 hl
    exact ⟨_, congrArg _ (buildWriteWith_rejected hm hlt s unit start), bne_unbounded_of_limit hm⟩
  | none => exact ⟨_, congrArg _ (buildWriteWith_accepted hl s unit start), rfl⟩

/-- The row RQ10 may answer what BUILD_WRITE may (log entry 8). -/
theorem mayAnswer_rq10 (unit : Byte) (start : Word) (values : List Word) (r : Response) :
    mayAnswer (.rq10 unit start values) r = mayAnswer (.buildWrite unit start values) r := by
  cases r with
  | ok p => cases p <;> rfl
  | error e => cases e <;> rfl

/-! ### Every instruction -/

theorem exec_parseResponse_mayAnswer (inp : List Byte) (unit : Byte) (s : State) :
    ∃ r, exec (.parseResponse inp unit) s = .next (complete s r) ∧ mayAnswer (.parseResponse inp unit) r = true := by
  match inp with
  | [] | [_] => exact ⟨_, exec_parseResponse_short (by simp) unit s, rfl⟩
  | addr :: fc :: rest =>
    rw [exec_parseResponse_cons]
    split_ifs
    · obtain ⟨r, heq, hr⟩ := readArm_mayAnswer (begin s) (addr :: fc :: rest) unit
      exact ⟨r, congrArg _ heq, mayAnswer_parseResponse_of_row (.inl hr)⟩
    · obtain ⟨r, heq, hr⟩ := writeArm_mayAnswer (begin s) (addr :: fc :: rest) unit
      exact ⟨r, congrArg _ heq, mayAnswer_parseResponse_of_row (.inr hr)⟩
    · exact ⟨_, exec_rsUnsupported fc s, rfl⟩

/-- What an instruction can do, by kind: it completes with a response that R22 and R202 allow it. -/
theorem exec_mayAnswer (i : Instr) (s : State) :
    ∃ r, exec i s = .next (complete s r) ∧ mayAnswer i r = true := by
  cases i with
  | crc16 inp => exact ⟨_, exec_crc16 inp s, rfl⟩
  | verifyCrc inp =>
    cases h : receivedCrc inp with
    | none => exact ⟨_, exec_verifyCrc_none h s, rfl⟩
    | some received => exact ⟨_, exec_verifyCrc_some h s, rfl⟩
  | buildRead unit start qty => exact ⟨_, exec_buildRead unit start qty s, rfl⟩
  | buildWrite unit start values => exact exec_buildWrite_mayAnswer unit start values s
  | parseResponse inp unit => exact exec_parseResponse_mayAnswer inp unit s
  | rq03 unit start qty => exact ⟨_, exec_rq03 unit start qty s, rfl⟩
  | rq10 unit start values =>
    obtain ⟨r, heq, hr⟩ := exec_buildWrite_mayAnswer unit start values s
    exact ⟨r, heq, (mayAnswer_rq10 unit start values r).trans hr⟩
  | rs03 inp unit =>
    obtain ⟨r, heq, hr⟩ := readArm_mayAnswer (begin s) inp unit
    exact ⟨r, congrArg _ heq, hr⟩
  | rs10 inp unit =>
    obtain ⟨r, heq, hr⟩ := writeArm_mayAnswer (begin s) inp unit
    exact ⟨r, congrArg _ heq, hr⟩
  | rsUnsupported fc => exact ⟨_, exec_rsUnsupported fc s, rfl⟩

/-! ### The obligations -/

/-- Settles O11: the result port holds the one response with which the instruction completes. -/
theorem answersAreThoseOfTheInstruction : Obligations.AnswersAreThoseOfTheInstruction := by
  intro i s t r ht hr
  obtain ⟨r', heq, hmay⟩ := exec_mayAnswer i s
  cases heq.symm.trans ht
  cases hr
  exact hmay

/-- Settles O55: each outcome's code by definition, and the bound by the outcomes. -/
theorem statusCodesAreThoseOfTheTable : Obligations.StatusCodesAreThoseOfTheTable :=
  ⟨fun _ => rfl, fun _ _ => rfl, fun _ _ => rfl, fun _ _ => rfl, fun _ => rfl, fun _ _ => rfl, fun _ => rfl,
    toNat_statusOf_lt⟩

end Sys2Proof.Machine
end

section
/-! SUPPORT. The family of reset, totality and timing: the reset state and the reset action, that every issued command is answered, and
the trace of the CRC's bit steps (R249). -/

namespace Sys2Proof.Machine

/-! ### The trace of the CRC's bit steps -/

theorem length_bitTrace (n : Nat) (acc : Word) : (bitTrace n acc).length = n := by
  induction n generalizing acc with
  | zero => rfl
  | succ n ih => exact congrArg (· + 1) (ih (crcBit acc))

/-- R249: eight bit steps per byte, from any accumulator. -/
theorem length_crcTrace (acc : Word) (bs : List Byte) : (crcTrace acc bs).length = 8 * bs.length := by
  induction bs generalizing acc with
  | nil => rfl
  | cons b bs ih =>
    rw [crcTrace, List.length_append, length_bitTrace, ih, List.length_cons]
    omega

theorem getLast?_cons_bitTrace (n : Nat) (acc : Word) : (acc :: bitTrace n acc).getLast? = some (crcBits n acc) := by
  induction n generalizing acc with
  | zero => rfl
  | succ n ih => rw [bitTrace, List.getLast?_cons_cons, ih, crcBits]

/-- The last of a byte's eight bit steps is the byte step of R110. -/
theorem getLast?_byteTrace (acc : Word) (b : Byte) :
    (bitTrace 8 (acc ^^^ b.setWidth 16)).getLast? = some (crcStep acc b) :=
  getLast?_cons_bitTrace 7 (crcBit (acc ^^^ b.setWidth 16))

/-- The trace from any accumulator ends with R111's fold over the bytes, the accumulator itself where there is none. -/
theorem getLast?_cons_crcTrace (acc : Word) (bs : List Byte) :
    (acc :: crcTrace acc bs).getLast? = some (bs.foldl crcStep acc) := by
  induction bs generalizing acc with
  | nil => rfl
  | cons b bs ih =>
    have hrest := ih (crcStep acc b)
    rw [List.getLast?_cons] at hrest
    rw [List.getLast?_cons, crcTrace, List.getLast?_append, getLast?_byteTrace, List.foldl_cons, ← hrest]
    cases (crcTrace (crcStep acc b) bs).getLast? <;> rfl

/-! ### The obligations -/

/-- Settles O5: `step_command_answers` chooses the response before the state. -/
theorem everyIssuedCommandIsAnswered : Obligations.EveryIssuedCommandIsAnswered := by
  intro s cmd ports rest h
  obtain ⟨r, hr⟩ := step_command_answers cmd ports
  exact ⟨r, hr s rest h⟩

/-- Settles O25: the trace from the seed. -/
theorem crcMakesEightBitStepsPerByte : Obligations.CrcMakesEightBitStepsPerByte :=
  fun bs => ⟨length_crcTrace seed bs, getLast?_cons_crcTrace seed bs⟩

/-- Settles O1: the issued command is taken off the list, which is then that of reset. -/
theorem resetLeavesTheEngineIdle : Obligations.ResetLeavesTheEngineIdle :=
  ⟨rfl, rfl, rfl, fun _ => step_idle, fun _ _ => step_issue_ok rfl⟩

/-- Settles O59: the state that the step of a reset action answers. -/
theorem resetActionLeavesNoResponse : Obligations.ResetActionLeavesNoResponse :=
  fun _ _ h => ⟨_, step_reset h, resetEngine_work _, resetEngine_result _, resetEngine_inputs _, resetEngine_delivered _⟩

end Sys2Proof.Machine
end
